-- ==== Sys2Proof/Word.lean ====
section
/-! DEFINITION. The two word types of the hardware: 8-bit bytes and 16-bit words (00_scope.md R7, R9). -/

namespace Sys2Proof

/-- A byte: a register `a`, `x`, `y`, a memory cell, an opcode (00_scope.md R7). -/
abbrev Byte := BitVec 8

/-- A 16-bit word: an address, the program counter, a descriptor's operand (00_scope.md R7). -/
abbrev Word := BitVec 16

end Sys2Proof
end

