-- ==== Sys2Proof/Config.lean ====
section
/-! DEFINITION. The four parameters the spec leaves to the implementation (00_scope.md R8; D2, D7, D8, D9), and their legal values. -/

namespace Sys2Proof

/-- The parameters of 00_scope.md R8. They are fixed for the life of a machine (log 2). -/
structure Config where
  /-- HALT_OPCODE: the opcode byte of the halt marker (30_encoding.md R56, D2). -/
  haltOpcode : Byte
  /-- INDIRECT_ADDS_X: whether the Indirect mode adds `x` to its operand before the pointer fetch (R82, D7). -/
  indirectAddsX : Bool
  /-- INDIRECT_PAGE_WRAP_BUG: whether the Indirect pointer's high byte comes from the same page (R82, D8). -/
  indirectPageWrapBug : Bool
  /-- ZP_POINTER_WRAP: whether a zero-page pointer's high byte stays in the zero page (R83, R84, D9). -/
  zpPointerWrap : Bool
  deriving DecidableEq, Repr

namespace Config

/-- The defaults of 00_scope.md R8. -/
def default : Config :=
  { haltOpcode := 0x02, indirectAddsX := true, indirectPageWrapBug := false, zpPointerWrap := true }

/-- The 105 bytes that the opcode map leaves unassigned: the 104 of the list in 30_encoding.md R57, and 0x02. It is written from
that list, apart from the opcode table of Decode.lean. -/
def unassignedBytes : List Byte :=
  [0x02, 0x03, 0x04, 0x07, 0x0B, 0x0C, 0x0F, 0x12, 0x13, 0x14, 0x17, 0x1A, 0x1B, 0x1C, 0x1F]
  ++ [0x22, 0x23, 0x27, 0x2B, 0x2F, 0x32, 0x33, 0x34, 0x37, 0x3A, 0x3B, 0x3C, 0x3F, 0x42, 0x43]
  ++ [0x44, 0x47, 0x4B, 0x4F, 0x52, 0x53, 0x54, 0x57, 0x5A, 0x5B, 0x5C, 0x5F, 0x62, 0x63, 0x64]
  ++ [0x67, 0x6B, 0x6F, 0x72, 0x73, 0x74, 0x77, 0x7A, 0x7B, 0x7C, 0x7F, 0x80, 0x82, 0x83, 0x87]
  ++ [0x89, 0x8B, 0x8F, 0x92, 0x93, 0x97, 0x9B, 0x9C, 0x9E, 0x9F, 0xA3, 0xA7, 0xAB, 0xAF, 0xB2]
  ++ [0xB3, 0xB7, 0xBB, 0xBF, 0xC2, 0xC3, 0xC7, 0xCB, 0xCF, 0xD2, 0xD3, 0xD4, 0xD7, 0xDA, 0xDB]
  ++ [0xDC, 0xDF, 0xE2, 0xE3, 0xE7, 0xEB, 0xEF, 0xF2, 0xF3, 0xF4, 0xF7, 0xFA, 0xFB, 0xFC, 0xFF]

/-- Whether the opcode map leaves a byte unassigned (30_encoding.md R56, R57). -/
def isUnassigned (b : Byte) : Bool := unassignedBytes.contains b

/-- The legal parameter values of 00_scope.md R8: HALT_OPCODE is an unassigned byte; the three Booleans are free. -/
def legal (cfg : Config) : Bool := isUnassigned cfg.haltOpcode

end Config

end Sys2Proof
end

