-- ==== Sys2Proof/Machine/State.lean ====
section
/-! DEFINITION. The machine's state as plain data (10_state.md R10 to R25), the ways a step can stop, and the state after reset. -/

namespace Sys2Proof.Machine

/-- The status register: "eight independently named boolean flags" (10_state.md R16), most significant first in the packed order of R17. -/
structure Flags where
  /-- Negative. -/
  n : Bool
  /-- Overflow. -/
  v : Bool
  /-- b-high, an ordinary stored bit (R16, D25). -/
  bhi : Bool
  /-- b-low, an ordinary stored bit (R16, D25). -/
  blo : Bool
  /-- Decimal; nothing reads it (R17). -/
  d : Bool
  /-- Interrupt-disable; nothing reads it (R17, R206). -/
  i : Bool
  /-- Zero. -/
  z : Bool
  /-- Carry; ADC writes it and nothing reads it (R17, R105). -/
  c : Bool
  deriving DecidableEq, Repr

/-- What a `step` returns to the driver: one of two values (46_step_and_lookahead.md R191). -/
inductive StepResult where
  /-- An instruction (LDA, ADC or HLT) was executed. -/
  | ok
  /-- `Err(UnimplementedOpcode(opcode, at))`: the opcode byte, and the address it was fetched from (R191, R200, R201, D18). -/
  | unimplementedOpcode (opcode : Byte) (origin : Word)
  deriving DecidableEq, Repr

/-- The attached memory of 65536 bytes (10_state.md R23, 20_memory.md R30) as address and byte pairs, addresses strictly rising, every unlisted
address reading as 0x00; `Memory.wf` in Ops.lean is that form. -/
abbrev Memory := List Host.Cell

/-- The state of the machine: the spec's tuple (a, x, y, pc, P, mem) and two fields of the model's own, `cfg` and `result`. -/
structure State where
  /-- The parameters of the machine, never changed by anything (00_scope.md R8; log 2). -/
  cfg : Config
  /-- The accumulator (R10). -/
  a : Byte
  /-- An index register (R11). -/
  x : Byte
  /-- An index register (R12). -/
  y : Byte
  /-- The program counter: between operations, the address of the next opcode byte (R13). -/
  pc : Word
  /-- The status register (R16). -/
  p : Flags
  /-- The attached memory (R23). -/
  mem : Memory
  /-- What the last step returned to its driver (R191). It is no latch of the hardware (R22): every step overwrites it, nothing reads it (log 4). -/
  result : StepResult
  deriving DecidableEq, Repr

/-- Why the machine stops. UnimplementedOpcode is none of these: after it the hardware "is in an ordinary state and accepts every operation"
(60_exceptions.md R205), so a step that raises it answers a next state with the error as its result (log 4). -/
inductive Fault where
  /-- MalformedDecode (60_exceptions.md R200, R202): the decoder consumed a byte count other than the instruction's declared length. Raised by `step`
  alone. It cannot occur; safe (log 10). -/
  | malformedDecode
  deriving DecidableEq, Repr

/-- Why an instruction is given no meaning. -/
inductive Refusal where
  /-- No meaning yet. Raised by an arm of exec; no arm of this model does; safe. -/
  | notModelled (mnemonic : String)
  /-- A descriptor that decode cannot produce, such as LDA in mode Accumulator (46_step_and_lookahead.md R192, D24). Raised by every meaning that
  has such a descriptor, and by no step; safe (log 9). -/
  | impossibleDescriptor
  deriving DecidableEq, Repr

/-- The three outcomes of an instruction. -/
abbrev StepOutcome := Host.Outcome State Fault Refusal

/-- All flags false, as after reset (10_state.md R24). -/
def Flags.clear : Flags :=
  { n := false, v := false, bhi := false, blo := false, d := false, i := false, z := false, c := false }

/-- The state right after reset, and equally at power-on (10_state.md R24, 70_reset_and_hazards.md R230, R231): every register zero, every flag
false, no memory byte listed. The parameters are the defaults of R8 (log 2). The result is the model's own choice (log 5). -/
def State.reset : State :=
  { cfg := Config.default, a := 0, x := 0, y := 0, pc := 0, p := Flags.clear, mem := [], result := .ok }

end Sys2Proof.Machine
end

