-- ==== Sys2Proof/Machine/Flags.lean ====
section
/-! DEFINITION. The flag computations: set_negative_zero (10_state.md R19), ADC's carry and overflow (42_adc.md R105), and the packed status byte
(10_state.md R17). -/

namespace Sys2Proof.Machine

/-- `set_negative_zero(value)`: Negative from bit 7, Zero from being zero; the other six flags are kept (10_state.md R19). -/
def Flags.setNegativeZero (p : Flags) (value : Byte) : Flags := { p with n := value.msb, z := value == 0 }

/-- ADC's carry: the unsigned 8-bit addition overflowed (42_adc.md R105). -/
def addCarry (a m : Byte) : Bool := decide (a.toNat + m.toNat > 255)

/-- ADC's overflow: the operands have the same sign and the sum the other one (42_adc.md R105). -/
def addOverflow (a m : Byte) : Bool := a.msb == m.msb && (a + m).msb != a.msb

/-- The four flags ADC writes, from this addition alone; D, I, Bhi, Blo are kept (42_adc.md R105). -/
def Flags.afterAdd (p : Flags) (a m : Byte) : Flags :=
  ({ p with c := addCarry a m, v := addOverflow a m } : Flags).setNegativeZero (a + m)

/-- The packed status byte, N in bit 7 down to C in bit 0 (10_state.md R17). It is a naming for an observer; no instruction forms it. -/
def Flags.pack (p : Flags) : Byte :=
  BitVec.ofBool p.n ++ BitVec.ofBool p.v ++ BitVec.ofBool p.bhi ++ BitVec.ofBool p.blo
    ++ BitVec.ofBool p.d ++ BitVec.ofBool p.i ++ BitVec.ofBool p.z ++ BitVec.ofBool p.c

end Sys2Proof.Machine
end

