-- ==== Sys2Proof/Syntax.lean ====
section
/-! DEFINITION. The instructions as written: addressing modes, operands as the raw bytes that follow the opcode, the 58
mnemonic tags, and the one inductive of instructions, with the opcode table's row of each given by its constructor and the mode of its operand
(log 11). Nothing here depends on the state: what an operand resolves to is Machine/Operands.lean. -/

namespace Sys2Proof

/-- The thirteen addressing modes, as 10_state.md R21 lists them. They are names, with no bit encoding (D23). -/
inductive Mode where
  | immediate | zeroPage | zeroPageX | zeroPageY | absolute | absoluteX | absoluteY
  | indirect | indexedIndirect | indirectIndexed | implied | accumulator | relative
  deriving DecidableEq, Repr

/-- `operand_byte_length`: how many bytes the mode consumes after the opcode (10_state.md R21, 30_encoding.md R50, R52). -/
def Mode.byteLength : Mode → Nat
  | .implied | .accumulator => 0
  | .immediate | .zeroPage | .zeroPageX | .zeroPageY | .relative | .indexedIndirect | .indirectIndexed => 1
  | .absolute | .absoluteX | .absoluteY | .indirect => 2

/-- An addressing mode together with the raw operand bytes of the instruction, lowest address first: one byte in format F2,
`lo` then `hi` in format F3 (30_encoding.md R50, R54). -/
inductive Operand where
  | immediate (b : Byte)
  | zeroPage (b : Byte)
  | zeroPageX (b : Byte)
  | zeroPageY (b : Byte)
  | absolute (lo hi : Byte)
  | absoluteX (lo hi : Byte)
  | absoluteY (lo hi : Byte)
  | indirect (lo hi : Byte)
  | indexedIndirect (b : Byte)
  | indirectIndexed (b : Byte)
  | implied
  | accumulator
  | relative (b : Byte)
  deriving DecidableEq, Repr

/-- The addressing mode of an operand. -/
def Operand.mode : Operand → Mode
  | .immediate _ => .immediate
  | .zeroPage _ => .zeroPage
  | .zeroPageX _ => .zeroPageX
  | .zeroPageY _ => .zeroPageY
  | .absolute _ _ => .absolute
  | .absoluteX _ _ => .absoluteX
  | .absoluteY _ _ => .absoluteY
  | .indirect _ _ => .indirect
  | .indexedIndirect _ => .indexedIndirect
  | .indirectIndexed _ => .indirectIndexed
  | .implied => .implied
  | .accumulator => .accumulator
  | .relative _ => .relative

/-- The operand bytes in memory order (30_encoding.md R50, R51). -/
def Operand.bytes : Operand → List Byte
  | .immediate b | .zeroPage b | .zeroPageX b | .zeroPageY b | .indexedIndirect b | .indirectIndexed b | .relative b => [b]
  | .absolute lo hi | .absoluteX lo hi | .absoluteY lo hi | .indirect lo hi => [lo, hi]
  | .implied | .accumulator => []

/-- The 58 mnemonic tags of a descriptor: the 56 legal mnemonics, then the halt marker and the unknown-opcode marker
(10_state.md R21, 30_encoding.md R55, R61). -/
inductive Mnemonic where
  | lda | adc | ldx | ldy | sta | stx | sty | and | ora | eor
  | sbc | bit | cmp | cpx | cpy | asl | lsr | rol | ror | inc
  | dec | bcc | bcs | beq | bmi | bne | bpl | bvc | bvs | jmp
  | jsr | rts | rti | brk | clc | cld | cli | clv | sec | sed
  | sei | pha | php | pla | plp | tax | tay | tsx | txa | txs
  | tya | inx | iny | dex | dey | nop | hlt | unk
  deriving DecidableEq, Repr

/-- An instruction: the document's "tagged variant over all legal mnemonics" (10_state.md R21), before its operand is resolved.
A mnemonic with one form carries just that form's bytes, so that no other form can be written; a mnemonic with several forms carries an
`Operand`, and `wellFormed` says which modes it has. Opcode bytes are in Decode.lean. -/
inductive Instr where
  /-- LDA, load accumulator: R100. -/
  | lda (o : Operand)
  /-- ADC, add to accumulator, without carry-in: R105. -/
  | adc (o : Operand)
  /-- LDX, load index register X (decode-only): R120. -/
  | ldx (o : Operand)
  /-- LDY, load index register Y (decode-only): R121. -/
  | ldy (o : Operand)
  /-- STA, store accumulator to memory (decode-only): R122. -/
  | sta (o : Operand)
  /-- STX, store X to memory (decode-only): R123. -/
  | stx (o : Operand)
  /-- STY, store Y to memory (decode-only): R124. -/
  | sty (o : Operand)
  /-- AND, bitwise AND of memory with accumulator (decode-only): R125. -/
  | and (o : Operand)
  /-- ORA, bitwise OR of memory with accumulator (decode-only): R126. -/
  | ora (o : Operand)
  /-- EOR, bitwise exclusive OR of memory with accumulator (decode-only): R127. -/
  | eor (o : Operand)
  /-- SBC, subtract memory from accumulator with borrow (decode-only): R128. -/
  | sbc (o : Operand)
  /-- BIT, test bits of memory against accumulator (decode-only): R129. -/
  | bit (o : Operand)
  /-- CMP, compare memory with accumulator (decode-only): R130. -/
  | cmp (o : Operand)
  /-- CPX, compare memory with X (decode-only): R131. -/
  | cpx (o : Operand)
  /-- CPY, compare memory with Y (decode-only): R132. -/
  | cpy (o : Operand)
  /-- ASL, arithmetic shift left of memory or accumulator (decode-only): R133. -/
  | asl (o : Operand)
  /-- LSR, logical shift right of memory or accumulator (decode-only): R134. -/
  | lsr (o : Operand)
  /-- ROL, rotate left through carry (decode-only): R135. -/
  | rol (o : Operand)
  /-- ROR, rotate right through carry (decode-only): R136. -/
  | ror (o : Operand)
  /-- INC, increment memory (decode-only): R137. -/
  | inc (o : Operand)
  /-- DEC, decrement memory (decode-only): R138. -/
  | dec (o : Operand)
  /-- BCC, branch if carry clear (decode-only): R150. -/
  | bcc (offset : Byte)
  /-- BCS, branch if carry set (decode-only): R151. -/
  | bcs (offset : Byte)
  /-- BEQ, branch if zero set (decode-only): R152. -/
  | beq (offset : Byte)
  /-- BMI, branch if negative set (decode-only): R153. -/
  | bmi (offset : Byte)
  /-- BNE, branch if zero clear (decode-only): R154. -/
  | bne (offset : Byte)
  /-- BPL, branch if negative clear (decode-only): R155. -/
  | bpl (offset : Byte)
  /-- BVC, branch if overflow clear (decode-only): R156. -/
  | bvc (offset : Byte)
  /-- BVS, branch if overflow set (decode-only): R157. -/
  | bvs (offset : Byte)
  /-- JMP, jump (decode-only): R158. -/
  | jmp (o : Operand)
  /-- JSR, jump to subroutine (decode-only): R159. -/
  | jsr (lo hi : Byte)
  /-- RTS, return from subroutine (decode-only): R160. -/
  | rts
  /-- RTI, return from interrupt (decode-only): R161. -/
  | rti
  /-- BRK, software break (forced interrupt) (decode-only): R162. -/
  | brk
  /-- CLC, clear carry flag (decode-only): R163. -/
  | clc
  /-- CLD, clear decimal flag (decode-only): R164. -/
  | cld
  /-- CLI, clear interrupt-disable flag (decode-only): R165. -/
  | cli
  /-- CLV, clear overflow flag (decode-only): R166. -/
  | clv
  /-- SEC, set carry flag (decode-only): R167. -/
  | sec
  /-- SED, set decimal flag (decode-only): R168. -/
  | sed
  /-- SEI, set interrupt-disable flag (decode-only): R169. -/
  | sei
  /-- PHA, push accumulator on the stack (decode-only): R170. -/
  | pha
  /-- PHP, push the packed status byte on the stack (decode-only): R171. -/
  | php
  /-- PLA, pull accumulator from the stack (decode-only): R172. -/
  | pla
  /-- PLP, pull the packed status byte from the stack (decode-only): R173. -/
  | plp
  /-- TAX, transfer accumulator to X (decode-only): R174. -/
  | tax
  /-- TAY, transfer accumulator to Y (decode-only): R175. -/
  | tay
  /-- TSX, transfer stack pointer to X (decode-only): R176. -/
  | tsx
  /-- TXA, transfer X to accumulator (decode-only): R177. -/
  | txa
  /-- TXS, transfer X to stack pointer (decode-only): R178. -/
  | txs
  /-- TYA, transfer Y to accumulator (decode-only): R179. -/
  | tya
  /-- INX, increment X (decode-only): R180. -/
  | inx
  /-- INY, increment Y (decode-only): R181. -/
  | iny
  /-- DEX, decrement X (decode-only): R182. -/
  | dex
  /-- DEY, decrement Y (decode-only): R183. -/
  | dey
  /-- NOP, no operation (decode-only): R184. -/
  | nop
  /-- HLT, the halt marker: R110. -/
  | hlt
  /-- UNK, the unknown-opcode marker, with the byte that was read: R111. -/
  | unk (opcode : Byte)
  deriving DecidableEq, Repr

/-- The mnemonic tag of an instruction. -/
def Instr.mnemonic : Instr → Mnemonic
  | .lda _ => .lda
  | .adc _ => .adc
  | .ldx _ => .ldx
  | .ldy _ => .ldy
  | .sta _ => .sta
  | .stx _ => .stx
  | .sty _ => .sty
  | .and _ => .and
  | .ora _ => .ora
  | .eor _ => .eor
  | .sbc _ => .sbc
  | .bit _ => .bit
  | .cmp _ => .cmp
  | .cpx _ => .cpx
  | .cpy _ => .cpy
  | .asl _ => .asl
  | .lsr _ => .lsr
  | .rol _ => .rol
  | .ror _ => .ror
  | .inc _ => .inc
  | .dec _ => .dec
  | .bcc _ => .bcc
  | .bcs _ => .bcs
  | .beq _ => .beq
  | .bmi _ => .bmi
  | .bne _ => .bne
  | .bpl _ => .bpl
  | .bvc _ => .bvc
  | .bvs _ => .bvs
  | .jmp _ => .jmp
  | .jsr _ _ => .jsr
  | .rts => .rts
  | .rti => .rti
  | .brk => .brk
  | .clc => .clc
  | .cld => .cld
  | .cli => .cli
  | .clv => .clv
  | .sec => .sec
  | .sed => .sed
  | .sei => .sei
  | .pha => .pha
  | .php => .php
  | .pla => .pla
  | .plp => .plp
  | .tax => .tax
  | .tay => .tay
  | .tsx => .tsx
  | .txa => .txa
  | .txs => .txs
  | .tya => .tya
  | .inx => .inx
  | .iny => .iny
  | .dex => .dex
  | .dey => .dey
  | .nop => .nop
  | .hlt => .hlt
  | .unk _ => .unk

/-- The operand of an instruction, mode and raw bytes. HLT and UNK carry the mode Implied (40_decode_and_resolve.md R72, D13). -/
def Instr.operand : Instr → Operand
  | .lda o | .adc o | .ldx o | .ldy o | .sta o | .stx o
  | .sty o | .and o | .ora o | .eor o | .sbc o | .bit o
  | .cmp o | .cpx o | .cpy o | .asl o | .lsr o | .rol o
  | .ror o | .inc o | .dec o | .jmp o => o
  | .bcc offset | .bcs offset | .beq offset | .bmi offset | .bne offset | .bpl offset
  | .bvc offset | .bvs offset => .relative offset
  | .jsr lo hi => .absolute lo hi
  | .rts | .rti | .brk | .clc | .cld | .cli | .clv | .sec
  | .sed | .sei | .pha | .php | .pla | .plp | .tax | .tay
  | .tsx | .txa | .txs | .tya | .inx | .iny | .dex | .dey
  | .nop | .hlt => .implied
  | .unk _ => .implied

/-- `operand_byte_length` of an instruction (10_state.md R21). -/
def Instr.operandByteLength (i : Instr) : Nat := i.operand.mode.byteLength

/-- The whole length in bytes, opcode included: 1, 2 or 3 (30_encoding.md R50). -/
def Instr.length (i : Instr) : Nat := 1 + i.operandByteLength

end Sys2Proof
end

