-- ==== Sys2Proof/Decode.lean ====
section
/-! DEFINITION. The opcode table, the decoder from bytes to instructions, and the encoder written from the same table
(30_encoding.md R50 to R58, 40_decode_and_resolve.md R70, R72). The opcode numbers are the standard MOS 6502 assignment the spec supplies
from general knowledge (D6, G1; log 1). -/

namespace Sys2Proof

/-! ## The opcode map -/

/-- One legal opcode: its byte, its mnemonic and its addressing mode. -/
structure OpcodeRow where
  opcode : Byte
  mnemonic : Mnemonic
  mode : Mode
  deriving DecidableEq, Repr

/-- Row 0x of 30_encoding.md R55. -/
def opcodeRow0 : List OpcodeRow := [
  ⟨0x00, .brk, .implied⟩, ⟨0x01, .ora, .indexedIndirect⟩, ⟨0x05, .ora, .zeroPage⟩, ⟨0x06, .asl, .zeroPage⟩,
  ⟨0x08, .php, .implied⟩, ⟨0x09, .ora, .immediate⟩, ⟨0x0A, .asl, .accumulator⟩, ⟨0x0D, .ora, .absolute⟩,
  ⟨0x0E, .asl, .absolute⟩]

/-- Row 1x of 30_encoding.md R55. -/
def opcodeRow1 : List OpcodeRow := [
  ⟨0x10, .bpl, .relative⟩, ⟨0x11, .ora, .indirectIndexed⟩, ⟨0x15, .ora, .zeroPageX⟩, ⟨0x16, .asl, .zeroPageX⟩,
  ⟨0x18, .clc, .implied⟩, ⟨0x19, .ora, .absoluteY⟩, ⟨0x1D, .ora, .absoluteX⟩, ⟨0x1E, .asl, .absoluteX⟩]

/-- Row 2x of 30_encoding.md R55. -/
def opcodeRow2 : List OpcodeRow := [
  ⟨0x20, .jsr, .absolute⟩, ⟨0x21, .and, .indexedIndirect⟩, ⟨0x24, .bit, .zeroPage⟩, ⟨0x25, .and, .zeroPage⟩,
  ⟨0x26, .rol, .zeroPage⟩, ⟨0x28, .plp, .implied⟩, ⟨0x29, .and, .immediate⟩, ⟨0x2A, .rol, .accumulator⟩,
  ⟨0x2C, .bit, .absolute⟩, ⟨0x2D, .and, .absolute⟩, ⟨0x2E, .rol, .absolute⟩]

/-- Row 3x of 30_encoding.md R55. -/
def opcodeRow3 : List OpcodeRow := [
  ⟨0x30, .bmi, .relative⟩, ⟨0x31, .and, .indirectIndexed⟩, ⟨0x35, .and, .zeroPageX⟩, ⟨0x36, .rol, .zeroPageX⟩,
  ⟨0x38, .sec, .implied⟩, ⟨0x39, .and, .absoluteY⟩, ⟨0x3D, .and, .absoluteX⟩, ⟨0x3E, .rol, .absoluteX⟩]

/-- Row 4x of 30_encoding.md R55. -/
def opcodeRow4 : List OpcodeRow := [
  ⟨0x40, .rti, .implied⟩, ⟨0x41, .eor, .indexedIndirect⟩, ⟨0x45, .eor, .zeroPage⟩, ⟨0x46, .lsr, .zeroPage⟩,
  ⟨0x48, .pha, .implied⟩, ⟨0x49, .eor, .immediate⟩, ⟨0x4A, .lsr, .accumulator⟩, ⟨0x4C, .jmp, .absolute⟩,
  ⟨0x4D, .eor, .absolute⟩, ⟨0x4E, .lsr, .absolute⟩]

/-- Row 5x of 30_encoding.md R55. -/
def opcodeRow5 : List OpcodeRow := [
  ⟨0x50, .bvc, .relative⟩, ⟨0x51, .eor, .indirectIndexed⟩, ⟨0x55, .eor, .zeroPageX⟩, ⟨0x56, .lsr, .zeroPageX⟩,
  ⟨0x58, .cli, .implied⟩, ⟨0x59, .eor, .absoluteY⟩, ⟨0x5D, .eor, .absoluteX⟩, ⟨0x5E, .lsr, .absoluteX⟩]

/-- Row 6x of 30_encoding.md R55. -/
def opcodeRow6 : List OpcodeRow := [
  ⟨0x60, .rts, .implied⟩, ⟨0x61, .adc, .indexedIndirect⟩, ⟨0x65, .adc, .zeroPage⟩, ⟨0x66, .ror, .zeroPage⟩,
  ⟨0x68, .pla, .implied⟩, ⟨0x69, .adc, .immediate⟩, ⟨0x6A, .ror, .accumulator⟩, ⟨0x6C, .jmp, .indirect⟩,
  ⟨0x6D, .adc, .absolute⟩, ⟨0x6E, .ror, .absolute⟩]

/-- Row 7x of 30_encoding.md R55. -/
def opcodeRow7 : List OpcodeRow := [
  ⟨0x70, .bvs, .relative⟩, ⟨0x71, .adc, .indirectIndexed⟩, ⟨0x75, .adc, .zeroPageX⟩, ⟨0x76, .ror, .zeroPageX⟩,
  ⟨0x78, .sei, .implied⟩, ⟨0x79, .adc, .absoluteY⟩, ⟨0x7D, .adc, .absoluteX⟩, ⟨0x7E, .ror, .absoluteX⟩]

/-- Row 8x of 30_encoding.md R55. -/
def opcodeRow8 : List OpcodeRow := [
  ⟨0x81, .sta, .indexedIndirect⟩, ⟨0x84, .sty, .zeroPage⟩, ⟨0x85, .sta, .zeroPage⟩, ⟨0x86, .stx, .zeroPage⟩,
  ⟨0x88, .dey, .implied⟩, ⟨0x8A, .txa, .implied⟩, ⟨0x8C, .sty, .absolute⟩, ⟨0x8D, .sta, .absolute⟩,
  ⟨0x8E, .stx, .absolute⟩]

/-- Row 9x of 30_encoding.md R55. -/
def opcodeRow9 : List OpcodeRow := [
  ⟨0x90, .bcc, .relative⟩, ⟨0x91, .sta, .indirectIndexed⟩, ⟨0x94, .sty, .zeroPageX⟩, ⟨0x95, .sta, .zeroPageX⟩,
  ⟨0x96, .stx, .zeroPageY⟩, ⟨0x98, .tya, .implied⟩, ⟨0x99, .sta, .absoluteY⟩, ⟨0x9A, .txs, .implied⟩,
  ⟨0x9D, .sta, .absoluteX⟩]

/-- Row Ax of 30_encoding.md R55. -/
def opcodeRowA : List OpcodeRow := [
  ⟨0xA0, .ldy, .immediate⟩, ⟨0xA1, .lda, .indexedIndirect⟩, ⟨0xA2, .ldx, .immediate⟩, ⟨0xA4, .ldy, .zeroPage⟩,
  ⟨0xA5, .lda, .zeroPage⟩, ⟨0xA6, .ldx, .zeroPage⟩, ⟨0xA8, .tay, .implied⟩, ⟨0xA9, .lda, .immediate⟩,
  ⟨0xAA, .tax, .implied⟩, ⟨0xAC, .ldy, .absolute⟩, ⟨0xAD, .lda, .absolute⟩, ⟨0xAE, .ldx, .absolute⟩]

/-- Row Bx of 30_encoding.md R55. -/
def opcodeRowB : List OpcodeRow := [
  ⟨0xB0, .bcs, .relative⟩, ⟨0xB1, .lda, .indirectIndexed⟩, ⟨0xB4, .ldy, .zeroPageX⟩, ⟨0xB5, .lda, .zeroPageX⟩,
  ⟨0xB6, .ldx, .zeroPageY⟩, ⟨0xB8, .clv, .implied⟩, ⟨0xB9, .lda, .absoluteY⟩, ⟨0xBA, .tsx, .implied⟩,
  ⟨0xBC, .ldy, .absoluteX⟩, ⟨0xBD, .lda, .absoluteX⟩, ⟨0xBE, .ldx, .absoluteY⟩]

/-- Row Cx of 30_encoding.md R55. -/
def opcodeRowC : List OpcodeRow := [
  ⟨0xC0, .cpy, .immediate⟩, ⟨0xC1, .cmp, .indexedIndirect⟩, ⟨0xC4, .cpy, .zeroPage⟩, ⟨0xC5, .cmp, .zeroPage⟩,
  ⟨0xC6, .dec, .zeroPage⟩, ⟨0xC8, .iny, .implied⟩, ⟨0xC9, .cmp, .immediate⟩, ⟨0xCA, .dex, .implied⟩,
  ⟨0xCC, .cpy, .absolute⟩, ⟨0xCD, .cmp, .absolute⟩, ⟨0xCE, .dec, .absolute⟩]

/-- Row Dx of 30_encoding.md R55. -/
def opcodeRowD : List OpcodeRow := [
  ⟨0xD0, .bne, .relative⟩, ⟨0xD1, .cmp, .indirectIndexed⟩, ⟨0xD5, .cmp, .zeroPageX⟩, ⟨0xD6, .dec, .zeroPageX⟩,
  ⟨0xD8, .cld, .implied⟩, ⟨0xD9, .cmp, .absoluteY⟩, ⟨0xDD, .cmp, .absoluteX⟩, ⟨0xDE, .dec, .absoluteX⟩]

/-- Row Ex of 30_encoding.md R55. -/
def opcodeRowE : List OpcodeRow := [
  ⟨0xE0, .cpx, .immediate⟩, ⟨0xE1, .sbc, .indexedIndirect⟩, ⟨0xE4, .cpx, .zeroPage⟩, ⟨0xE5, .sbc, .zeroPage⟩,
  ⟨0xE6, .inc, .zeroPage⟩, ⟨0xE8, .inx, .implied⟩, ⟨0xE9, .sbc, .immediate⟩, ⟨0xEA, .nop, .implied⟩,
  ⟨0xEC, .cpx, .absolute⟩, ⟨0xED, .sbc, .absolute⟩, ⟨0xEE, .inc, .absolute⟩]

/-- Row Fx of 30_encoding.md R55. -/
def opcodeRowF : List OpcodeRow := [
  ⟨0xF0, .beq, .relative⟩, ⟨0xF1, .sbc, .indirectIndexed⟩, ⟨0xF5, .sbc, .zeroPageX⟩, ⟨0xF6, .inc, .zeroPageX⟩,
  ⟨0xF8, .sed, .implied⟩, ⟨0xF9, .sbc, .absoluteY⟩, ⟨0xFD, .sbc, .absoluteX⟩, ⟨0xFE, .inc, .absoluteX⟩]

/-- The 151 legal opcodes, by opcode byte (30_encoding.md R55). -/
def opcodeTable : List OpcodeRow :=
  opcodeRow0 ++ opcodeRow1 ++ opcodeRow2 ++ opcodeRow3 ++ opcodeRow4 ++ opcodeRow5 ++ opcodeRow6 ++ opcodeRow7 ++ opcodeRow8
    ++ opcodeRow9 ++ opcodeRowA ++ opcodeRowB ++ opcodeRowC ++ opcodeRowD ++ opcodeRowE ++ opcodeRowF

/-- The row of an opcode byte, if the byte is a legal opcode. -/
def rowOfOpcode (opcode : Byte) : Option OpcodeRow := opcodeTable.find? fun r => r.opcode == opcode

/-- The row of a mnemonic in an addressing mode, if the mnemonic has that form. -/
def rowOfForm (m : Mnemonic) (mode : Mode) : Option OpcodeRow :=
  opcodeTable.find? fun r => r.mnemonic == m && r.mode == mode

/-- `OpcodeMap`: the total function from opcode bytes to a mnemonic and an addressing mode (40_decode_and_resolve.md R72). A legal opcode comes
first, so that an illegal choice of HALT_OPCODE displaces no legal instruction (log 16). -/
def opcodeMap (cfg : Config) (opcode : Byte) : Mnemonic × Mode :=
  match rowOfOpcode opcode with
  | some r => (r.mnemonic, r.mode)
  | none => if opcode = cfg.haltOpcode then (.hlt, .implied) else (.unk, .implied)

/-! ## From operand bytes to operands -/

/-- The operand of a mode from its raw bytes; a byte the mode does not have is not looked at (30_encoding.md R54). -/
def Operand.ofMode (mode : Mode) (b1 b2 : Byte) : Operand :=
  match mode with
  | .immediate => .immediate b1
  | .zeroPage => .zeroPage b1
  | .zeroPageX => .zeroPageX b1
  | .zeroPageY => .zeroPageY b1
  | .absolute => .absolute b1 b2
  | .absoluteX => .absoluteX b1 b2
  | .absoluteY => .absoluteY b1 b2
  | .indirect => .indirect b1 b2
  | .indexedIndirect => .indexedIndirect b1
  | .indirectIndexed => .indirectIndexed b1
  | .implied => .implied
  | .accumulator => .accumulator
  | .relative => .relative b1

/-- The first operand byte, zero where the mode has none. -/
def Operand.byte1 (o : Operand) : Byte := o.bytes.headD 0

/-- The second operand byte, zero where the mode has none. -/
def Operand.byte2 (o : Operand) : Byte := o.bytes.tail.headD 0

/-- The instruction of a (mnemonic, opcode byte, operand) triple. A mnemonic with one form takes just the bytes of its operand. -/
def Instr.ofParts (m : Mnemonic) (opcode : Byte) (o : Operand) : Instr :=
  match m with
  | .lda => .lda o
  | .adc => .adc o
  | .ldx => .ldx o
  | .ldy => .ldy o
  | .sta => .sta o
  | .stx => .stx o
  | .sty => .sty o
  | .and => .and o
  | .ora => .ora o
  | .eor => .eor o
  | .sbc => .sbc o
  | .bit => .bit o
  | .cmp => .cmp o
  | .cpx => .cpx o
  | .cpy => .cpy o
  | .asl => .asl o
  | .lsr => .lsr o
  | .rol => .rol o
  | .ror => .ror o
  | .inc => .inc o
  | .dec => .dec o
  | .bcc => .bcc o.byte1
  | .bcs => .bcs o.byte1
  | .beq => .beq o.byte1
  | .bmi => .bmi o.byte1
  | .bne => .bne o.byte1
  | .bpl => .bpl o.byte1
  | .bvc => .bvc o.byte1
  | .bvs => .bvs o.byte1
  | .jmp => .jmp o
  | .jsr => .jsr o.byte1 o.byte2
  | .rts => .rts
  | .rti => .rti
  | .brk => .brk
  | .clc => .clc
  | .cld => .cld
  | .cli => .cli
  | .clv => .clv
  | .sec => .sec
  | .sed => .sed
  | .sei => .sei
  | .pha => .pha
  | .php => .php
  | .pla => .pla
  | .plp => .plp
  | .tax => .tax
  | .tay => .tay
  | .tsx => .tsx
  | .txa => .txa
  | .txs => .txs
  | .tya => .tya
  | .inx => .inx
  | .iny => .iny
  | .dex => .dex
  | .dey => .dey
  | .nop => .nop
  | .hlt => .hlt
  | .unk => .unk opcode

/-! ## The decoder -/

/-- Why a byte sequence is not decoded: it ends before the instruction does. No byte value is rejected, since every opcode byte decodes
(30_encoding.md R58). -/
inductive DecodeError where
  | truncated
  deriving DecidableEq, Repr

/-- Reads one instruction from the front of a byte sequence and returns it with the bytes left over: the opcode byte selects mnemonic and
mode, and the mode says how many operand bytes follow (40_decode_and_resolve.md R70, 30_encoding.md R51, R53). -/
def decode (cfg : Config) (bytes : List Byte) : Except DecodeError (Instr × List Byte) :=
  match bytes with
  | [] => .error .truncated
  | opcode :: rest =>
    let (m, mode) := opcodeMap cfg opcode
    match mode.byteLength, rest with
    | 0, rest => .ok (Instr.ofParts m opcode (Operand.ofMode mode 0 0), rest)
    | 1, b1 :: rest => .ok (Instr.ofParts m opcode (Operand.ofMode mode b1 0), rest)
    | 2, b1 :: b2 :: rest => .ok (Instr.ofParts m opcode (Operand.ofMode mode b1 b2), rest)
    | _, _ => .error .truncated

/-- How many operand bytes follow an opcode byte; the opcode byte alone tells (30_encoding.md R53). -/
def operandByteLengthOf (cfg : Config) (opcode : Byte) : Nat := (opcodeMap cfg opcode).2.byteLength

/-! ## The encoder -/

/-- The opcode byte of an instruction; none for one that no byte sequence decodes to (46_step_and_lookahead.md R192, D24). -/
def opcodeOf (cfg : Config) (i : Instr) : Option Byte :=
  match i with
  | .hlt => if (rowOfOpcode cfg.haltOpcode).isSome then none else some cfg.haltOpcode
  | .unk b => if (rowOfOpcode b).isSome || b == cfg.haltOpcode then none else some b
  | i => (rowOfForm i.mnemonic i.operand.mode).map OpcodeRow.opcode

/-- The bytes of an instruction, opcode first (30_encoding.md R50, R51). -/
def encode (cfg : Config) (i : Instr) : Option (List Byte) :=
  (opcodeOf cfg i).map fun opcode => opcode :: i.operand.bytes

/-! ## The opcode table's numbering of bits -/

/-- The longest instruction, three bytes (30_encoding.md R50), of an instruction numbered as spec/opcode_table.json numbers it: bit 0 is the
least significant bit of the first byte, and every bit from `nbits` on is 0. -/
def tableWordBytes (nbits w : Nat) : List Byte :=
  let v := w % 2 ^ nbits
  [BitVec.ofNat 8 v, BitVec.ofNat 8 (v / 2 ^ 8), BitVec.ofNat 8 (v / 2 ^ 16)]

/-- The instruction the decoder reads from an opcode-table word, with the default parameters (which are those of the reset state). -/
def decodeTableWord (nbits w : Nat) : Option Instr :=
  match decode Config.default (tableWordBytes nbits w) with
  | .ok (i, _) => some i
  | .error _ => none

end Sys2Proof
end

