-- ==== Sys2Proof/Machine/Ops.lean ====
section
/-! DEFINITION. The named operations over memory and registers: reading and writing a byte, assembling a 16-bit word, fetching an
instruction's bytes, moving the program counter, and raising UnimplementedOpcode, the machine's one exception. -/

namespace Sys2Proof.Machine

/-! ## Memory (20_memory.md) -/

/-- What an unlisted address reads as: 0x00, the byte every address holds after reset (10_state.md R24; log 8). -/
def Memory.blank : Byte := 0

/-- The byte at an address key (20_memory.md R32). -/
def Memory.read (m : Memory) (k : Nat) : Byte :=
  match m with
  | [] => Memory.blank
  | (k', b) :: rest => if k' = k then b else Memory.read rest k

/-- Stores a byte at an address key and keeps the canonical form: storing `Memory.blank` unlists the address (20_memory.md R33). -/
def Memory.write (m : Memory) (k : Nat) (b : Byte) : Memory :=
  match m with
  | [] => if b = Memory.blank then [] else [(k, b)]
  | (k', b') :: rest =>
    if k < k' then
      if b = Memory.blank then (k', b') :: rest else (k, b) :: (k', b') :: rest
    else if k = k' then
      if b = Memory.blank then rest else (k, b) :: rest
    else (k', b') :: Memory.write rest k b

/-- The canonical form from an address on: addresses strictly rising and below 65536 (20_memory.md R30), no byte equal to `Memory.blank`. -/
def Memory.wfFrom (low : Nat) (m : Memory) : Bool :=
  match m with
  | [] => true
  | (k, b) :: rest => decide (low ≤ k) && decide (k < 65536) && decide (b ≠ Memory.blank) && Memory.wfFrom (k + 1) rest

/-- The canonical form of a memory. -/
def Memory.wf (m : Memory) : Bool := Memory.wfFrom 0 m

/-- `MemRead(addr, 1)` (20_memory.md R32). -/
def State.readByte (s : State) (a : Word) : Byte := Memory.read s.mem a.toNat

/-- `MemWrite(addr, 1, v)` (20_memory.md R33): the host's `write`; no instruction performs one (R45). -/
def State.writeByte (s : State) (a : Word) (b : Byte) : State := { s with mem := Memory.write s.mem a.toNat b }

/-- Stores bytes at successive addresses, wrapping at the top of the address space. -/
def State.writeBytes (s : State) (a : Word) (bs : List Byte) : State :=
  match bs with
  | [] => s
  | b :: rest => (s.writeByte a b).writeBytes (a + 1) rest

/-! ## Bytes and words (00_scope.md R9) -/

/-- `zext_16(b)`. -/
def zext16 (b : Byte) : Word := b.setWidth 16

/-- The low byte of a word, `w[7:0]`. -/
def lowByte (w : Word) : Byte := w.setWidth 8

/-- The high byte of a word, `w[15:8]`. -/
def highByte (w : Word) : Byte := (w >>> 8).setWidth 8

/-- A word from its two bytes, the low byte first in memory (`R9`'s concatenation of hi and lo; 20_memory.md R34). -/
def wordOf (lo hi : Byte) : Word := BitVec.ofNat 16 (hi.toNat * 256 + lo.toNat)

/-! ## Fetching (40_decode_and_resolve.md) -/

/-- `Fetch8()`: the byte at `pc`, and the state with `pc` one further, modulo 65536 (40_decode_and_resolve.md R71; log 3). -/
def State.fetch8 (s : State) : Byte × State := (s.readByte s.pc, { s with pc := s.pc + 1 })

/-- `n` bytes fetched one after the other. -/
def State.fetchBytes (s : State) (n : Nat) : List Byte × State :=
  match n with
  | 0 => ([], s)
  | n + 1 =>
    let (b, s1) := s.fetch8
    let (bs, s2) := s1.fetchBytes n
    (b :: bs, s2)

/-- The bytes of the instruction at `pc`: the opcode, then as many operand bytes as the opcode byte tells, and the state with `pc` after them
(40_decode_and_resolve.md R70, R71; 30_encoding.md R53). -/
def State.fetchInstrBytes (s : State) : List Byte × State :=
  let (opcode, s1) := s.fetch8
  let (operands, s2) := s1.fetchBytes (operandByteLengthOf s.cfg opcode)
  (opcode :: operands, s2)

/-- The instruction at `pc` and the state with `pc` after it; none where the decoder consumes another count of bytes than was fetched or than the
instruction declares, which is MalformedDecode (60_exceptions.md R202; log 10). -/
def State.fetchInstr (s : State) : Option (Instr × State) :=
  let (bytes, s') := s.fetchInstrBytes
  match decode s.cfg bytes with
  | .ok (i, rest) => if rest = [] ∧ i.length = bytes.length then some (i, s') else none
  | .error _ => none

/-! ## Registers -/

/-- `pc` moved forward by `n`, modulo 65536 (10_state.md R14, R15). -/
def State.advance (s : State) (n : Nat) : State := { s with pc := s.pc + BitVec.ofNat 16 n }

/-- `pc` moved back by `n`, modulo 65536 (10_state.md R15). -/
def State.rewind (s : State) (n : Nat) : State := { s with pc := s.pc - BitVec.ofNat 16 n }

/-- The accumulator written. -/
def State.setA (s : State) (v : Byte) : State := { s with a := v }

/-- The status register written whole. -/
def State.setP (s : State) (p : Flags) : State := { s with p := p }

/-- The value the step returns to the driver (46_step_and_lookahead.md R191). -/
def State.setResult (s : State) (r : StepResult) : State := { s with result := r }

/-! ## Ending an instruction: Ok, or UnimplementedOpcode -/

/-- The step returns `Ok` (46_step_and_lookahead.md R191). -/
def finishOk (s : State) : StepOutcome := .next (s.setResult .ok)

/-- Taking UnimplementedOpcode, the machine's one exception, on an instruction of `length` bytes at `pc`: `pc` is left where the decode moved it, all
else is kept, and the step returns the error with the opcode byte and the address it was fetched from (60_exceptions.md R201, R203, R204; D4, D18; log 4). There is no
saved state, no vector and no return from it (R204, R205): the next step goes on at the new `pc`. -/
def raiseUnimplemented (opcode : Byte) (length : Nat) (s : State) : StepOutcome :=
  .next ((s.advance length).setResult (.unimplementedOpcode opcode s.pc))

/-- The whole step on an instruction that has no execution rule: UnimplementedOpcode, with the instruction's own opcode byte
(44_decode_only_data.md R119, 43_pseudo_hlt_unknown.md R111; D3; log 18). A descriptor that decode cannot produce is refused (R192, D24; log 9). -/
def raiseForDecodeOnly (i : Instr) (s : State) : StepOutcome :=
  match opcodeOf s.cfg i with
  | some opcode => raiseUnimplemented opcode i.length s
  | none => .refused .impossibleDescriptor

end Sys2Proof.Machine
end

