-- ==== Sys2Proof/Machine/Operands.lean ====
section
/-! DEFINITION. The operand resolver: for every addressing mode, the 16-bit operand (40_decode_and_resolve.md R75 to R87), its class (R88), the value
an executed instruction works on (R89), and the whole step of an instruction that works on such a value. -/

namespace Sys2Proof.Machine

/-- The classes of addressing modes (40_decode_and_resolve.md R88). -/
inductive OperandClass where
  | immediate | address | none
  deriving DecidableEq, Repr

/-- The class of a mode: Immediate and Relative are values, nine modes are addresses, Implied and Accumulator have no operand
(40_decode_and_resolve.md R88, R87). -/
def classOf (mode : Mode) : OperandClass :=
  match mode with
  | .immediate | .relative => .immediate
  | .zeroPage | .zeroPageX | .zeroPageY | .absolute | .absoluteX | .absoluteY
  | .indirect | .indexedIndirect | .indirectIndexed => .address
  | .implied | .accumulator => .none

/-! ## Pointers -/

/-- The address of the Indirect mode's pointer: the two-byte operand, plus `x` if INDIRECT_ADDS_X (40_decode_and_resolve.md R82, D7). -/
def indirectPointer (s : State) (lo hi : Byte) : Word :=
  if s.cfg.indirectAddsX then wordOf lo hi + zext16 s.x else wordOf lo hi

/-- The address of the high byte of the Indirect mode's pointer: in the same page if INDIRECT_PAGE_WRAP_BUG, else the next address (R82, D8). -/
def indirectPointerHigh (cfg : Config) (p : Word) : Word :=
  if cfg.indirectPageWrapBug then wordOf (lowByte p + 1) (highByte p) else p + 1

/-- The address of the high byte of a zero-page pointer: in the zero page if ZP_POINTER_WRAP, else the next address, which may be 0x0100
(40_decode_and_resolve.md R83, R84, D9). -/
def zpPointerHigh (cfg : Config) (p : Byte) : Word :=
  if cfg.zpPointerWrap then zext16 (p + 1) else zext16 p + 1

/-- The addresses of the pointer bytes a mode follows while it is resolved, low byte first; none for the other modes
(40_decode_and_resolve.md R91, 20_memory.md R37). -/
def pointerReads (o : Operand) (s : State) : List Word :=
  match o with
  | .indirect lo hi => [indirectPointer s lo hi, indirectPointerHigh s.cfg (indirectPointer s lo hi)]
  | .indexedIndirect b => [zext16 (b + s.x), zpPointerHigh s.cfg (b + s.x)]
  | .indirectIndexed b => [zext16 b, zpPointerHigh s.cfg b]
  | .immediate _ | .zeroPage _ | .zeroPageX _ | .zeroPageY _ | .absolute _ _ | .absoluteX _ _ | .absoluteY _ _
  | .implied | .accumulator | .relative _ => []

/-- The 16-bit pointer whose low and high bytes are at the two addresses (20_memory.md R34, D10; log 14). -/
def readPointer (s : State) (lowAt highAt : Word) : Word := wordOf (s.readByte lowAt) (s.readByte highAt)

/-! ## Resolving -/

/-- `Resolve`: the operand field of the descriptor, an immediate byte zero-extended or an effective address
(40_decode_and_resolve.md R73, R75 to R87). It reads `x`, `y` and memory, never `pc` (R90). -/
def resolve (o : Operand) (s : State) : Word :=
  match o with
  | .immediate b => zext16 b
  | .zeroPage b => zext16 b
  | .zeroPageX b => zext16 (b + s.x)
  | .zeroPageY b => zext16 (b + s.y)
  | .absolute lo hi => wordOf lo hi
  | .absoluteX lo hi => wordOf lo hi + zext16 s.x
  | .absoluteY lo hi => wordOf lo hi + zext16 s.y
  | .indirect lo hi => readPointer s (indirectPointer s lo hi) (indirectPointerHigh s.cfg (indirectPointer s lo hi))
  | .indexedIndirect b => readPointer s (zext16 (b + s.x)) (zpPointerHigh s.cfg (b + s.x))
  | .indirectIndexed b => readPointer s (zext16 b) (zpPointerHigh s.cfg b) + zext16 s.y
  | .implied => 0
  | .accumulator => 0
  | .relative b => zext16 b

/-- `OperandValue`: the 8-bit value an executed instruction works on; none for the modes without an operand (40_decode_and_resolve.md R89). -/
def operandValue (o : Operand) (s : State) : Option Byte :=
  match classOf o.mode with
  | .immediate => some (lowByte (resolve o s))
  | .address => some (s.readByte (resolve o s))
  | .none => none

/-- The whole step of an instruction that works on an operand value: `pc` goes past the instruction, then the effect is applied to the value, and the
step returns `Ok` (41_lda.md R100, 42_adc.md R105). A descriptor that decode cannot produce is refused (R192, D24; log 9). -/
def executeOnValue (i : Instr) (effect : Byte → State → State) (s : State) : StepOutcome :=
  match opcodeOf s.cfg i, operandValue i.operand s with
  | some _, some v => finishOk (effect v (s.advance i.length))
  | _, _ => .refused .impossibleDescriptor

end Sys2Proof.Machine
end

