-- ==== Sys2Proof/Machine/Arithmetic.lean ====
section
/-! DEFINITION. The arithmetic family: ADC (42_adc.md). The carry flag is no input of the addition and decimal mode is not applied (R105, D5, C11; log 15). -/

namespace Sys2Proof.Machine

/-- ADC's effect on the state once its operand is found: the accumulator takes the 8-bit sum, and C, V, N, Z follow the addition (42_adc.md R105). -/
def addToAccumulator (m : Byte) (s : State) : State := (s.setA (s.a + m)).setP (s.p.afterAdd s.a m)

/-- ADC: R105. -/
def execAdc (o : Operand) (s : State) : StepOutcome := executeOnValue (.adc o) addToAccumulator s

end Sys2Proof.Machine
end

