-- ==== Sys2Proof/Machine/ControlGroup.lean ====
section
/-! DEFINITION. The meanings of the 35 decode-only mnemonics of the control and system group (45_decode_only_control_system.md R149, R150 to R184). Each decodes, advances
`pc` past itself and raises UnimplementedOpcode; the spec forbids giving any of them its MOS 6502 effect (R119, D3; log 18). -/

namespace Sys2Proof.Machine

/-- BCC: R150, after the general rule R119. -/
def execBcc (offset : Byte) (s : State) : StepOutcome := raiseForDecodeOnly (.bcc offset) s

/-- BCS: R151, after the general rule R119. -/
def execBcs (offset : Byte) (s : State) : StepOutcome := raiseForDecodeOnly (.bcs offset) s

/-- BEQ: R152, after the general rule R119. -/
def execBeq (offset : Byte) (s : State) : StepOutcome := raiseForDecodeOnly (.beq offset) s

/-- BMI: R153, after the general rule R119. -/
def execBmi (offset : Byte) (s : State) : StepOutcome := raiseForDecodeOnly (.bmi offset) s

/-- BNE: R154, after the general rule R119. -/
def execBne (offset : Byte) (s : State) : StepOutcome := raiseForDecodeOnly (.bne offset) s

/-- BPL: R155, after the general rule R119. -/
def execBpl (offset : Byte) (s : State) : StepOutcome := raiseForDecodeOnly (.bpl offset) s

/-- BVC: R156, after the general rule R119. -/
def execBvc (offset : Byte) (s : State) : StepOutcome := raiseForDecodeOnly (.bvc offset) s

/-- BVS: R157, after the general rule R119. -/
def execBvs (offset : Byte) (s : State) : StepOutcome := raiseForDecodeOnly (.bvs offset) s

/-- JMP: R158, after the general rule R119. -/
def execJmp (o : Operand) (s : State) : StepOutcome := raiseForDecodeOnly (.jmp o) s

/-- JSR: R159, after the general rule R119. -/
def execJsr (lo hi : Byte) (s : State) : StepOutcome := raiseForDecodeOnly (.jsr lo hi) s

/-- RTS: R160, after the general rule R119. -/
def execRts (s : State) : StepOutcome := raiseForDecodeOnly .rts s

/-- RTI: R161, after the general rule R119. -/
def execRti (s : State) : StepOutcome := raiseForDecodeOnly .rti s

/-- BRK: R162, after the general rule R119. -/
def execBrk (s : State) : StepOutcome := raiseForDecodeOnly .brk s

/-- CLC: R163, after the general rule R119. -/
def execClc (s : State) : StepOutcome := raiseForDecodeOnly .clc s

/-- CLD: R164, after the general rule R119. -/
def execCld (s : State) : StepOutcome := raiseForDecodeOnly .cld s

/-- CLI: R165, after the general rule R119. -/
def execCli (s : State) : StepOutcome := raiseForDecodeOnly .cli s

/-- CLV: R166, after the general rule R119. -/
def execClv (s : State) : StepOutcome := raiseForDecodeOnly .clv s

/-- SEC: R167, after the general rule R119. -/
def execSec (s : State) : StepOutcome := raiseForDecodeOnly .sec s

/-- SED: R168, after the general rule R119. -/
def execSed (s : State) : StepOutcome := raiseForDecodeOnly .sed s

/-- SEI: R169, after the general rule R119. -/
def execSei (s : State) : StepOutcome := raiseForDecodeOnly .sei s

/-- PHA: R170, after the general rule R119. -/
def execPha (s : State) : StepOutcome := raiseForDecodeOnly .pha s

/-- PHP: R171, after the general rule R119. -/
def execPhp (s : State) : StepOutcome := raiseForDecodeOnly .php s

/-- PLA: R172, after the general rule R119. -/
def execPla (s : State) : StepOutcome := raiseForDecodeOnly .pla s

/-- PLP: R173, after the general rule R119. -/
def execPlp (s : State) : StepOutcome := raiseForDecodeOnly .plp s

/-- TAX: R174, after the general rule R119. -/
def execTax (s : State) : StepOutcome := raiseForDecodeOnly .tax s

/-- TAY: R175, after the general rule R119. -/
def execTay (s : State) : StepOutcome := raiseForDecodeOnly .tay s

/-- TSX: R176, after the general rule R119. -/
def execTsx (s : State) : StepOutcome := raiseForDecodeOnly .tsx s

/-- TXA: R177, after the general rule R119. -/
def execTxa (s : State) : StepOutcome := raiseForDecodeOnly .txa s

/-- TXS: R178, after the general rule R119. -/
def execTxs (s : State) : StepOutcome := raiseForDecodeOnly .txs s

/-- TYA: R179, after the general rule R119. -/
def execTya (s : State) : StepOutcome := raiseForDecodeOnly .tya s

/-- INX: R180, after the general rule R119. -/
def execInx (s : State) : StepOutcome := raiseForDecodeOnly .inx s

/-- INY: R181, after the general rule R119. -/
def execIny (s : State) : StepOutcome := raiseForDecodeOnly .iny s

/-- DEX: R182, after the general rule R119. -/
def execDex (s : State) : StepOutcome := raiseForDecodeOnly .dex s

/-- DEY: R183, after the general rule R119. -/
def execDey (s : State) : StepOutcome := raiseForDecodeOnly .dey s

/-- NOP: R184, after the general rule R119. -/
def execNop (s : State) : StepOutcome := raiseForDecodeOnly .nop s

end Sys2Proof.Machine
end

