-- ==== Sys2Proof/Machine/DataGroup.lean ====
section
/-! DEFINITION. The meanings of the 19 decode-only mnemonics of the data group (44_decode_only_data.md R119, R120 to R138). Each decodes, advances
`pc` past itself and raises UnimplementedOpcode; the spec forbids giving any of them its MOS 6502 effect (R119, D3; log 18). -/

namespace Sys2Proof.Machine

/-- LDX: R120, after the general rule R119. -/
def execLdx (o : Operand) (s : State) : StepOutcome := raiseForDecodeOnly (.ldx o) s

/-- LDY: R121, after the general rule R119. -/
def execLdy (o : Operand) (s : State) : StepOutcome := raiseForDecodeOnly (.ldy o) s

/-- STA: R122, after the general rule R119. -/
def execSta (o : Operand) (s : State) : StepOutcome := raiseForDecodeOnly (.sta o) s

/-- STX: R123, after the general rule R119. -/
def execStx (o : Operand) (s : State) : StepOutcome := raiseForDecodeOnly (.stx o) s

/-- STY: R124, after the general rule R119. -/
def execSty (o : Operand) (s : State) : StepOutcome := raiseForDecodeOnly (.sty o) s

/-- AND: R125, after the general rule R119. -/
def execAnd (o : Operand) (s : State) : StepOutcome := raiseForDecodeOnly (.and o) s

/-- ORA: R126, after the general rule R119. -/
def execOra (o : Operand) (s : State) : StepOutcome := raiseForDecodeOnly (.ora o) s

/-- EOR: R127, after the general rule R119. -/
def execEor (o : Operand) (s : State) : StepOutcome := raiseForDecodeOnly (.eor o) s

/-- SBC: R128, after the general rule R119. -/
def execSbc (o : Operand) (s : State) : StepOutcome := raiseForDecodeOnly (.sbc o) s

/-- BIT: R129, after the general rule R119. -/
def execBit (o : Operand) (s : State) : StepOutcome := raiseForDecodeOnly (.bit o) s

/-- CMP: R130, after the general rule R119. -/
def execCmp (o : Operand) (s : State) : StepOutcome := raiseForDecodeOnly (.cmp o) s

/-- CPX: R131, after the general rule R119. -/
def execCpx (o : Operand) (s : State) : StepOutcome := raiseForDecodeOnly (.cpx o) s

/-- CPY: R132, after the general rule R119. -/
def execCpy (o : Operand) (s : State) : StepOutcome := raiseForDecodeOnly (.cpy o) s

/-- ASL: R133, after the general rule R119. -/
def execAsl (o : Operand) (s : State) : StepOutcome := raiseForDecodeOnly (.asl o) s

/-- LSR: R134, after the general rule R119. -/
def execLsr (o : Operand) (s : State) : StepOutcome := raiseForDecodeOnly (.lsr o) s

/-- ROL: R135, after the general rule R119. -/
def execRol (o : Operand) (s : State) : StepOutcome := raiseForDecodeOnly (.rol o) s

/-- ROR: R136, after the general rule R119. -/
def execRor (o : Operand) (s : State) : StepOutcome := raiseForDecodeOnly (.ror o) s

/-- INC: R137, after the general rule R119. -/
def execInc (o : Operand) (s : State) : StepOutcome := raiseForDecodeOnly (.inc o) s

/-- DEC: R138, after the general rule R119. -/
def execDec (o : Operand) (s : State) : StepOutcome := raiseForDecodeOnly (.dec o) s

end Sys2Proof.Machine
end

