-- ==== Sys2Proof/Machine/Load.lean ====
section
/-! DEFINITION. The load family: LDA (41_lda.md). -/

namespace Sys2Proof.Machine

/-- LDA's effect on the state once its value is found: the accumulator takes it, N and Z follow it (41_lda.md R100). -/
def loadAccumulator (v : Byte) (s : State) : State := (s.setA v).setP (s.p.setNegativeZero v)

/-- LDA: R100. -/
def execLda (o : Operand) (s : State) : StepOutcome := executeOnValue (.lda o) loadAccumulator s

end Sys2Proof.Machine
end

