-- ==== Sys2Proof/Machine/Pseudo.lean ====
section
/-! DEFINITION. The two pseudo-instructions: the halt marker and the unknown-opcode marker (43_pseudo_hlt_unknown.md). -/

namespace Sys2Proof.Machine

/-- HLT: the decode moves `pc` forward by 1 and the execution rewinds it by 1, so the same position is decoded again (R110; D19, log 19). -/
def execHlt (s : State) : StepOutcome := finishOk ((s.advance 1).rewind 1)

/-- UNK: UnimplementedOpcode after one byte (R111). -/
def execUnk (opcode : Byte) (s : State) : StepOutcome := raiseForDecodeOnly (.unk opcode) s

end Sys2Proof.Machine
end

