-- ==== Sys2Proof/Machine/Step.lean ====
section
/-! DEFINITION. The step operation (46_step_and_lookahead.md R190), and placing an opcode-table word where it fetches. -/

namespace Sys2Proof.Machine

/-- `step`: decode the instruction at `pc` and execute it, as one transition (46_step_and_lookahead.md R190). The fault is MalformedDecode, which cannot
occur (60_exceptions.md R202; log 10). -/
def step (s : State) : Host.Outcome State Fault Refusal :=
  match s.fetchInstr with
  | some (i, _) => exec i s
  | none => .fault .malformedDecode

/-- The state with an opcode-table word's three bytes stored at `pc` and after it: what the host does with `write` when it loads a program
(70_reset_and_hazards.md R234; log 7). -/
def State.withFetchWord (s : State) (nbits w : Nat) : State := s.writeBytes s.pc (tableWordBytes nbits w)

end Sys2Proof.Machine
end

