-- ==== Sys2Proof/Machine/Access.lean ====
section
/-! DEFINITION. Which memory addresses an operation reads, in the order of 20_memory.md R37 and the counts of R45's table. No access has a side
effect (R32), so these lists are no part of the state; the statements about them say that an operation depends on memory through them alone. -/

namespace Sys2Proof.Machine

/-- The addresses of `n` bytes from an address on, wrapping at the top of the address space (10_state.md R15). -/
def addressesFrom (a : Word) (n : Nat) : List Word :=
  match n with
  | 0 => []
  | n + 1 => a :: addressesFrom (a + 1) n

/-- The reads of a decode or a peek of an instruction at `pc`: its own bytes, then the pointer bytes of the indirect modes
(40_decode_and_resolve.md R91, 46_step_and_lookahead.md R197). -/
def decodeReads (i : Instr) (s : State) : List Word := addressesFrom s.pc i.length ++ pointerReads i.operand s

/-- The data read of an execution: one byte at the effective address, for the memory modes of LDA and ADC alone (20_memory.md R37, R45). -/
def dataReads (i : Instr) (s : State) : List Word :=
  match i.mnemonic, classOf i.operand.mode with
  | .lda, .address | .adc, .address => [resolve i.operand s]
  | _, _ => []

/-- The reads of a whole step of an instruction at `pc` (20_memory.md R37, R45). -/
def stepReads (i : Instr) (s : State) : List Word := decodeReads i s ++ dataReads i s

end Sys2Proof.Machine
end

