-- ==== Sys2Proof/Machine/Lookahead.lean ====
section
/-! DEFINITION. The instruction descriptor (10_state.md R21) and the lookahead unit, peek (46_step_and_lookahead.md R193 to R197). -/

namespace Sys2Proof.Machine

/-- The instruction descriptor, a transient value and no state (10_state.md R21). -/
structure Descriptor where
  mnemonic : Mnemonic
  opcode : Byte
  operand : Word
  operandByteLength : Nat
  addressingMode : Mode
  deriving DecidableEq, Repr

/-- The descriptor of an instruction read at `pc` in a state: the byte read there, and the operand as it resolves in that state, a snapshot
(40_decode_and_resolve.md R70, R90). -/
def describe (i : Instr) (s : State) : Descriptor :=
  { mnemonic := i.mnemonic, opcode := s.readByte s.pc, operand := resolve i.operand s,
    operandByteLength := i.operandByteLength, addressingMode := i.operand.mode }

/-- `Decode()`: the descriptor of the instruction at `pc`, and the state with `pc` past it (40_decode_and_resolve.md R70, R74). None is
MalformedDecode, which cannot occur (60_exceptions.md R202; log 10). -/
def decodeHere (s : State) : Option (Descriptor × State) :=
  s.fetchInstr.map fun (i, s') => (describe i s, s')

/-- `peek`: decode, then rewind `pc` by the length the descriptor reports (46_step_and_lookahead.md R193). -/
def peek (s : State) : Option (Descriptor × State) :=
  (decodeHere s).map fun (d, s') => (d, s'.rewind (1 + d.operandByteLength))

end Sys2Proof.Machine
end

