-- ==== Sys2Proof/Machine/Driver.lean ====
section
/-! DEFINITION. The five operations the block offers its driver, "and no others" (00_scope.md R4), each one atomic transition (R3), and sequences of
them. -/

namespace Sys2Proof.Machine

/-- An operation of the driver (00_scope.md R4). -/
inductive DriverOp where
  /-- `reset()` (70_reset_and_hazards.md R230). -/
  | reset
  /-- `step(memory)` (46_step_and_lookahead.md R190). -/
  | step
  /-- `peek(memory)` (46_step_and_lookahead.md R193). -/
  | peek
  /-- `read(addr)` (20_memory.md R31). -/
  | read (addr : Word)
  /-- `write(addr, byte)` (20_memory.md R31). -/
  | write (addr : Word) (byte : Byte)
  deriving DecidableEq, Repr

/-- What an operation returns to the driver. -/
inductive Reply where
  /-- `reset` and `write` return nothing (70_reset_and_hazards.md R232). -/
  | nothing
  /-- The result of a step (46_step_and_lookahead.md R191). -/
  | stepped (result : StepResult)
  /-- The descriptor of a peek (46_step_and_lookahead.md R193). -/
  | descriptor (d : Descriptor)
  /-- The byte of a read (20_memory.md R31). -/
  | byte (b : Byte)
  deriving DecidableEq, Repr

/-- Whether a reply is the descriptor a peek returned. -/
def Reply.isDescriptor : Reply → Bool
  | .descriptor _ => true
  | .nothing | .stepped _ | .byte _ => false

/-- `reset()`: the state after reset, of a machine with the same parameters (70_reset_and_hazards.md R230; log 2). It reads no memory. -/
def State.resetAgain (s : State) : State := { State.reset with cfg := s.cfg }

/-- One operation of the driver: the state it leaves and what it returns. -/
def operate (op : DriverOp) (s : State) : Host.Outcome (State × Reply) Fault Refusal :=
  match op with
  | .reset => .next (s.resetAgain, .nothing)
  | .step =>
    match step s with
    | .next s' => .next (s', .stepped s'.result)
    | .fault r => .fault r
    | .refused r => .refused r
  | .peek =>
    match peek s with
    | some (d, s') => .next (s', .descriptor d)
    | none => .fault .malformedDecode
  | .read addr => .next (s, .byte (s.readByte addr))
  | .write addr byte => .next (s.writeByte addr byte, .nothing)

/-- A sequence of operations, one after the other, with the replies in order. -/
def operateAll (ops : List DriverOp) (s : State) : Host.Outcome (State × List Reply) Fault Refusal :=
  match ops with
  | [] => .next (s, [])
  | op :: rest =>
    match operate op s with
    | .next (s1, reply) =>
      match operateAll rest s1 with
      | .next (s2, replies) => .next (s2, reply :: replies)
      | .fault r => .fault r
      | .refused r => .refused r
    | .fault r => .fault r
    | .refused r => .refused r

end Sys2Proof.Machine
end

