-- ==== Sys2Proof/Safety.lean ====
section
/-! DEFINITION. What counts as a safe run and as a run that has ended. The spec advises to treat an error as terminal for claims: "a run in which any
step returned `Err` is a faulted run, never a final one" (60_exceptions.md R205, D4); a run has ended normally when `pc` addresses the halt byte
(70_reset_and_hazards.md R235, D19). -/

namespace Sys2Proof.Machine

/-- The core is parked: `pc` addresses a byte that decodes to the halt marker (70_reset_and_hazards.md R235). -/
def State.parked (s : State) : Bool := (opcodeMap s.cfg (s.readByte s.pc)).1 == .hlt

/-- The state after `k` steps none of which returned an error; none where one did, or stopped. -/
def okRun (k : Nat) (s : State) : Option State :=
  match k with
  | 0 => some s
  | k + 1 =>
    match step s with
    | .next s' => if s'.result = .ok then okRun k s' else none
    | .fault _ => none
    | .refused _ => none

/-- A run of `k` steps from `s` has ended normally in `t` (70_reset_and_hazards.md R235). -/
def endsNormally (k : Nat) (s t : State) : Prop := okRun k s = some t ∧ t.parked = true

/-- What holds in every state the driver can reach from reset (10_state.md R25, R18) and is kept by every operation: legal parameters, a canonical
memory, both index registers zero, and the four flags that nothing writes false. -/
def State.Reachable (s : State) : Prop :=
  s.cfg.legal = true ∧ Memory.wf s.mem = true ∧ s.x = 0 ∧ s.y = 0 ∧
    s.p.bhi = false ∧ s.p.blo = false ∧ s.p.d = false ∧ s.p.i = false

end Sys2Proof.Machine
end

