-- ==== Sys2Proof/WellFormed.lean ====
section
/-! DEFINITION. Which instructions the decoder can produce (46_step_and_lookahead.md R192, D24): a mnemonic has only the forms of the table in
30_encoding.md R55; HLT needs a legal halt byte; UNK carries a byte that is neither assigned nor the halt byte. It is written from the
spec's table by mnemonic and its list of unknown bytes, apart from the decoder. -/

namespace Sys2Proof

/-- Whether a mnemonic has a form with the given addressing mode: the table by mnemonic of 30_encoding.md R55 (which columns of its row
are filled). HLT and UNK have the mode Implied (R72). -/
def Mnemonic.hasMode (m : Mnemonic) (mode : Mode) : Bool :=
  match m with
  | .lda | .adc | .and | .ora | .eor | .sbc | .cmp => [Mode.immediate, Mode.zeroPage, Mode.zeroPageX, Mode.absolute, Mode.absoluteX, Mode.absoluteY, Mode.indexedIndirect, Mode.indirectIndexed].contains mode
  | .ldx => [Mode.immediate, Mode.zeroPage, Mode.zeroPageY, Mode.absolute, Mode.absoluteY].contains mode
  | .ldy => [Mode.immediate, Mode.zeroPage, Mode.zeroPageX, Mode.absolute, Mode.absoluteX].contains mode
  | .sta => [Mode.zeroPage, Mode.zeroPageX, Mode.absolute, Mode.absoluteX, Mode.absoluteY, Mode.indexedIndirect, Mode.indirectIndexed].contains mode
  | .stx => [Mode.zeroPage, Mode.zeroPageY, Mode.absolute].contains mode
  | .sty => [Mode.zeroPage, Mode.zeroPageX, Mode.absolute].contains mode
  | .bit => [Mode.zeroPage, Mode.absolute].contains mode
  | .cpx | .cpy => [Mode.immediate, Mode.zeroPage, Mode.absolute].contains mode
  | .asl | .lsr | .rol | .ror => [Mode.zeroPage, Mode.zeroPageX, Mode.absolute, Mode.absoluteX, Mode.accumulator].contains mode
  | .inc | .dec => [Mode.zeroPage, Mode.zeroPageX, Mode.absolute, Mode.absoluteX].contains mode
  | .bcc | .bcs | .beq | .bmi | .bne | .bpl | .bvc | .bvs => [Mode.relative].contains mode
  | .jmp => [Mode.absolute, Mode.indirect].contains mode
  | .jsr => [Mode.absolute].contains mode
  | .rts | .rti | .brk | .clc | .cld | .cli | .clv | .sec
  | .sed | .sei | .pha | .php | .pla | .plp | .tax | .tay
  | .tsx | .txa | .txs | .tya | .inx | .iny | .dex | .dey
  | .nop | .hlt | .unk => [Mode.implied].contains mode

/-- The well-formed instructions of a machine with the given parameters: those its decoder can produce. -/
def wellFormed (cfg : Config) (i : Instr) : Bool :=
  match i with
  | .hlt => cfg.legal
  | .unk b => Config.isUnassigned b && b != cfg.haltOpcode
  | i => i.mnemonic.hasMode i.operand.mode

end Sys2Proof
end

