-- ==== Sys2Proof/Certificates/Slice0/Obligations.lean ====
section
/-! DEFINITION. The statements for the provers. Each docstring names the rule of spec/ it formalises, and, where a clause rests on a choice the spec
marks as its own or on a choice of this model, the log entry that records it. -/

open Sys2Proof Sys2Proof.Machine

/-! ## Reset and the state -/

/-- 70_reset_and_hazards.md R230: `reset()` from any state leaves every register zero, every flag false and every byte of memory zero, and returns
nothing; it reads no memory: whatever memory held before, the state it leaves is the same. -/
def Obligations.ResetZeroesEverything : Prop :=
  ∀ s : State, ∃ t : State, operate .reset s = .next (t, .nothing) ∧
    t.a = 0x00 ∧ t.x = 0x00 ∧ t.y = 0x00 ∧ t.pc = 0x0000 ∧
    t.p.n = false ∧ t.p.v = false ∧ t.p.bhi = false ∧ t.p.blo = false ∧
    t.p.d = false ∧ t.p.i = false ∧ t.p.z = false ∧ t.p.c = false ∧
    (∀ addr : Word, t.readByte addr = 0x00) ∧
    ∀ m : Memory, operate .reset { s with mem := m } = .next (t, .nothing)

/-- 10_state.md R24 and 70_reset_and_hazards.md R231, R232: the power-on state has the reset values, its packed status byte is 0x00, and two resets in
a row leave what one leaves. That power-on is reset is the spec's decision D14 (log 13). -/
def Obligations.PowerOnIsResetAndResetIsIdempotent : Prop :=
  (State.reset.a = 0 ∧ State.reset.x = 0 ∧ State.reset.y = 0 ∧ State.reset.pc = 0 ∧ State.reset.p.pack = 0x00 ∧
    (∀ addr : Word, State.reset.readByte addr = 0x00) ∧ Memory.wf State.reset.mem = true) ∧
  State.reset.resetAgain = State.reset ∧
  ∀ s : State, operateAll [.reset, .reset] s = .next (s.resetAgain, [.nothing, .nothing])

/-- 70_reset_and_hazards.md R233: a step straight after reset decodes BRK at 0x0000, returns UnimplementedOpcode(0x00, at 0x0000), leaves `pc = 0x0001`
and changes nothing else. That the error is a next state with a result is log 4; that 0x00 is BRK is log 1. -/
def Obligations.StepInFreshMemoryRaisesOnBrk : Prop :=
  step State.reset = .next { State.reset with pc := 0x0001, result := .unimplementedOpcode 0x00 0x0000 }

/-! ## Flags -/

/-- 10_state.md R19: `set_negative_zero` sets N from bit 7 and Z from being zero, both on every use, never both to true, and keeps the other six flags;
its users are LDA and ADC, each applying it to the new accumulator value, and no other instruction writes N or Z. -/
def Obligations.NegativeAndZeroFollowTheValue : Prop :=
  (∀ (p : Flags) (v : Byte),
    (p.setNegativeZero v).n = v.getLsbD 7 ∧ ((p.setNegativeZero v).z = true ↔ v = 0) ∧
    ¬ ((p.setNegativeZero v).n = true ∧ (p.setNegativeZero v).z = true) ∧
    (p.setNegativeZero v).v = p.v ∧ (p.setNegativeZero v).bhi = p.bhi ∧ (p.setNegativeZero v).blo = p.blo ∧
    (p.setNegativeZero v).d = p.d ∧ (p.setNegativeZero v).i = p.i ∧ (p.setNegativeZero v).c = p.c) ∧
  (∀ (i : Instr) (s t : State), exec i s = .next t →
    if i.mnemonic = .lda ∨ i.mnemonic = .adc then t.p.n = t.a.getLsbD 7 ∧ (t.p.z = true ↔ t.a = 0)
    else t.p.n = s.p.n ∧ t.p.z = s.p.z)

/-- 10_state.md R17: the packed status byte holds N, V, Bhi, Blo, D, I, Z, C from bit 7 down to bit 0. -/
def Obligations.PackedStatusBitOrder : Prop :=
  ∀ p : Flags,
    p.pack.getLsbD 7 = p.n ∧ p.pack.getLsbD 6 = p.v ∧ p.pack.getLsbD 5 = p.bhi ∧ p.pack.getLsbD 4 = p.blo ∧
    p.pack.getLsbD 3 = p.d ∧ p.pack.getLsbD 2 = p.i ∧ p.pack.getLsbD 1 = p.z ∧ p.pack.getLsbD 0 = p.c

/-- 42_adc.md R105: the three forms of the overflow rule agree, and so do carry and the exact sum: V is set exactly where the sum of the two
operands read as two's-complement numbers leaves -128..127, exactly where `(a xor r) and (m xor r) and 0x80` is not zero, and exactly where the
operands agree in bit 7 and the result differs from `a` there; C is set exactly where the exact unsigned sum is above 255. -/
def Obligations.AdcOverflowFormsAgree : Prop :=
  ∀ a m : Byte,
    (addOverflow a m = true ↔ (a.toInt + m.toInt > 127 ∨ a.toInt + m.toInt < -128)) ∧
    (addOverflow a m = true ↔ (a ^^^ (a + m)) &&& (m ^^^ (a + m)) &&& 0x80 ≠ 0) ∧
    (addOverflow a m = true ↔ (a.getLsbD 7 = m.getLsbD 7 ∧ (a + m).getLsbD 7 ≠ a.getLsbD 7)) ∧
    (addCarry a m = true ↔ a.toNat + m.toNat > 255)

/-! ## Memory -/

/-- 20_memory.md R33: after `write(addr, v)` the byte at `addr` is `v`, every other byte and every register and flag is unchanged, and a later read of
`addr` returns `v` after any operations that neither write `addr` nor reset. The premise is the memory's canonical form (log 8),
kept by every operation (DriverOperationsKeepReachable); `cfg` and `result` are the model's own fields (log 2, 4). -/
def Obligations.HostWriteIsReadBack : Prop :=
  ∀ (s : State) (addr : Word) (v : Byte), Memory.wf s.mem = true →
    ∃ t : State, operate (.write addr v) s = .next (t, .nothing) ∧
      t.readByte addr = v ∧ (∀ other : Word, other ≠ addr → t.readByte other = s.readByte other) ∧
      t.a = s.a ∧ t.x = s.x ∧ t.y = s.y ∧ t.pc = s.pc ∧ t.p = s.p ∧ t.cfg = s.cfg ∧ t.result = s.result ∧
      ∀ ops : List DriverOp, (∀ op ∈ ops, op ≠ .reset ∧ ∀ b : Byte, op ≠ .write addr b) →
        ∃ (u : State) (replies : List Reply), operateAll ops t = .next (u, replies) ∧
          operate (.read addr) u = .next (u, .byte v)

/-- 20_memory.md R32: a read returns the byte the memory holds and changes nothing, and a second read of the address returns the same byte, after any
operations between the two that neither write nor reset. -/
def Obligations.HostReadHasNoEffect : Prop :=
  ∀ (s : State) (addr : Word),
    operate (.read addr) s = .next (s, .byte (s.readByte addr)) ∧
    ∀ ops : List DriverOp, (∀ op ∈ ops, op ≠ .reset ∧ ∀ (k : Word) (b : Byte), op ≠ .write k b) →
      ∃ (u : State) (replies : List Reply),
        operateAll (.read addr :: ops) s = .next (u, .byte (s.readByte addr) :: replies) ∧
          operate (.read addr) u = .next (u, .byte (s.readByte addr))

/-- The canonical form of the model's memory makes equal memories equal data: two memories in it that read alike at every address are the same list. It
is the model's own form of 20_memory.md R30 (log 8). -/
def Obligations.CanonicalMemoriesAreDeterminedByTheirReads : Prop :=
  ∀ m m' : Memory, Memory.wf m = true → Memory.wf m' = true →
    (∀ addr : Word, Memory.read m addr.toNat = Memory.read m' addr.toNat) → m = m'

/-! ## Encoding -/

/-- Words written out from the spec's encodings, one for every addressing mode, the halt byte and an unknown byte, decode to the instructions they stand
for (30_encoding.md R55 to R57; the numbers are log 1). -/
def Obligations.SampleBytesDecode : Prop :=
  decode Config.default [0xA9, 0x80] = .ok (.lda (.immediate 0x80), []) ∧
  decode Config.default [0x65, 0x44] = .ok (.adc (.zeroPage 0x44), []) ∧
  decode Config.default [0xB5, 0xF0] = .ok (.lda (.zeroPageX 0xF0), []) ∧
  decode Config.default [0xB6, 0x44] = .ok (.ldx (.zeroPageY 0x44), []) ∧
  decode Config.default [0xAD, 0x34, 0x12] = .ok (.lda (.absolute 0x34 0x12), []) ∧
  decode Config.default [0x7D, 0xFF, 0x12] = .ok (.adc (.absoluteX 0xFF 0x12), []) ∧
  decode Config.default [0xB9, 0xF0, 0xFF] = .ok (.lda (.absoluteY 0xF0 0xFF), []) ∧
  decode Config.default [0x6C, 0x00, 0x03] = .ok (.jmp (.indirect 0x00 0x03), []) ∧
  decode Config.default [0x61, 0x44] = .ok (.adc (.indexedIndirect 0x44), []) ∧
  decode Config.default [0xB1, 0x44] = .ok (.lda (.indirectIndexed 0x44), []) ∧
  decode Config.default [0xEA] = .ok (.nop, []) ∧
  decode Config.default [0x0A] = .ok (.asl .accumulator, []) ∧
  decode Config.default [0xD0, 0xFE] = .ok (.bne 0xFE, []) ∧
  decode Config.default [0x20, 0x34, 0x12] = .ok (.jsr 0x34 0x12, []) ∧
  decode Config.default [0x02] = .ok (.hlt, []) ∧
  decode Config.default [0xFF, 0xA9, 0x80] = .ok (.unk 0xFF, [0xA9, 0x80])

/-- Decoding the encoding of any well-formed instruction, with every operand and under every choice of the parameters, gives it back and leaves what
follows; the encoding has the declared length (30_encoding.md R50 to R55; 10_state.md R21; the opcode numbers are log 1). -/
def Obligations.DecodeOfEncodeIsIdentity : Prop :=
  ∀ (cfg : Config) (i : Instr) (rest : List Byte), wellFormed cfg i = true →
    ∃ bytes : List Byte, encode cfg i = some bytes ∧ bytes.length = 1 + i.operandByteLength ∧
      decode cfg (bytes ++ rest) = .ok (i, rest)

/-- The other direction: whatever decodes is well formed, and the bytes consumed are exactly its encoding, so that each byte sequence has one meaning
and no unassigned byte decodes to a neighbour (30_encoding.md R55 to R58; the opcode numbers are log 1, an illegal HALT_OPCODE is log 16). -/
def Obligations.DecodedBytesAreTheEncoding : Prop :=
  ∀ (cfg : Config) (bytes rest : List Byte) (i : Instr), decode cfg bytes = .ok (i, rest) →
    wellFormed cfg i = true ∧ ∃ front : List Byte, encode cfg i = some front ∧ bytes = front ++ rest

/-- 30_encoding.md R53, R58: the decoder is total: it answers on every opcode byte as soon as the operand bytes are there, and it answers `truncated`
exactly where they are not; the count of bytes is told by the opcode byte alone. -/
def Obligations.DecoderIsTotal : Prop :=
  ∀ (cfg : Config) (opcode : Byte) (rest : List Byte),
    if operandByteLengthOf cfg opcode ≤ rest.length then
      ∃ i : Instr, decode cfg (opcode :: rest) = .ok (i, rest.drop (operandByteLengthOf cfg opcode)) ∧
        i.operandByteLength = operandByteLengthOf cfg opcode
    else decode cfg (opcode :: rest) = .error .truncated

/-- 30_encoding.md R55 to R57 and 40_decode_and_resolve.md R72: for every legal choice of HALT_OPCODE, the opcode map gives each row of the table its
mnemonic and mode, the halt byte HLT, and each other unassigned byte UNK, the last two in mode Implied (D13, log 14; the opcode numbers are log 1). -/
def Obligations.OpcodeMapFollowsTableAndHaltByte : Prop :=
  ∀ cfg : Config, cfg.legal = true →
    (∀ r ∈ opcodeTable, opcodeMap cfg r.opcode = (r.mnemonic, r.mode)) ∧
    opcodeMap cfg cfg.haltOpcode = (.hlt, .implied) ∧
    (∀ b : Byte, Config.isUnassigned b = true → b ≠ cfg.haltOpcode → opcodeMap cfg b = (.unk, .implied))

/-- 30_encoding.md R58: of the 256 opcode bytes, 16 execute (8 of LDA, 8 of ADC), 135 decode only, 1 is the halt marker and 104 are unknown (the opcode
numbers are log 1). -/
def Obligations.OpcodeClassCounts : Prop :=
  let mnemonics := (List.range 256).map fun n => (opcodeMap Config.default (BitVec.ofNat 8 n)).1
  mnemonics.count .lda = 8 ∧ mnemonics.count .adc = 8 ∧ mnemonics.count .hlt = 1 ∧ mnemonics.count .unk = 104 ∧
    mnemonics.countP (fun m => m != .lda && m != .adc && m != .hlt && m != .unk) = 135

/-! ## Addressing modes -/

/-- 40_decode_and_resolve.md R77, R78: the zero-page indexed modes take one operand byte and add the index register to it modulo 256, so the operand
always lies in the zero page. -/
def Obligations.ZeroPageIndexedWrapsInZeroPage : Prop :=
  ∀ (s : State) (b : Byte),
    (resolve (.zeroPageX b) s).toNat = (b.toNat + s.x.toNat) % 256 ∧
    (resolve (.zeroPageY b) s).toNat = (b.toNat + s.y.toNat) % 256 ∧
    (Operand.zeroPageX b).bytes = [b] ∧ (Operand.zeroPageY b).bytes = [b] ∧
    (Operand.zeroPageX b).mode.byteLength = 1 ∧ (Operand.zeroPageY b).mode.byteLength = 1

/-- 40_decode_and_resolve.md R75, R76: Immediate and ZeroPage take one operand byte and give it zero-extended; they differ in class alone. -/
def Obligations.ImmediateAndZeroPageZeroExtend : Prop :=
  ∀ (s : State) (b : Byte),
    (resolve (.immediate b) s).toNat = b.toNat ∧ (resolve (.zeroPage b) s).toNat = b.toNat ∧
    (Operand.immediate b).bytes = [b] ∧ (Operand.zeroPage b).bytes = [b] ∧
    (Operand.immediate b).mode.byteLength = 1 ∧ (Operand.zeroPage b).mode.byteLength = 1 ∧
    classOf .immediate = .immediate ∧ classOf .zeroPage = .address

/-- 40_decode_and_resolve.md R85 to R87: Implied and Accumulator consume nothing and give 0x0000; Relative gives its raw byte zero-extended, neither
sign-extended nor added to `pc`. The spec marks 0x0000 and Relative's rule as its own (D12, D11; log 14). -/
def Obligations.ImpliedAccumulatorRelativeOperands : Prop :=
  ∀ (s : State) (b : Byte),
    resolve .implied s = 0x0000 ∧ resolve .accumulator s = 0x0000 ∧ (resolve (.relative b) s).toNat = b.toNat ∧
    Mode.implied.byteLength = 0 ∧ Mode.accumulator.byteLength = 0 ∧ Mode.relative.byteLength = 1 ∧
    classOf .implied = .none ∧ classOf .accumulator = .none ∧ classOf .relative = .immediate

/-- 40_decode_and_resolve.md R79 to R81: Absolute is the little-endian word of the two operand bytes; AbsoluteX and AbsoluteY add the unsigned index
register modulo 65536 (the wrap is the spec's decision D1, log 3). -/
def Obligations.AbsoluteModesAddIndexModuloAddressSpace : Prop :=
  ∀ (s : State) (lo hi : Byte),
    (resolve (.absolute lo hi) s).toNat = hi.toNat * 256 + lo.toNat ∧
    (resolve (.absoluteX lo hi) s).toNat = (hi.toNat * 256 + lo.toNat + s.x.toNat) % 65536 ∧
    (resolve (.absoluteY lo hi) s).toNat = (hi.toNat * 256 + lo.toNat + s.y.toNat) % 65536 ∧
    (Operand.absolute lo hi).bytes = [lo, hi] ∧ (Operand.absoluteX lo hi).bytes = [lo, hi] ∧
    (Operand.absoluteY lo hi).bytes = [lo, hi]

/-- 40_decode_and_resolve.md R82 to R84 and 20_memory.md R34: the three indirect modes read a little-endian pointer. Indirect's pointer is at the operand,
plus `x` if INDIRECT_ADDS_X, and its high byte in the same page if INDIRECT_PAGE_WRAP_BUG, else at the next address. IndexedIndirect's pointer is at
`(b + x) mod 256`, IndirectIndexed's at `b`, the high byte in the zero page if ZP_POINTER_WRAP, else at the next address; IndirectIndexed adds `y` modulo
65536. It holds for every choice of the parameters (D1, D7 to D10; log 2, 3, 14). -/
def Obligations.IndirectModesFollowPointers : Prop :=
  ∀ (s : State) (b lo hi : Byte),
    (∀ p p2 : Nat,
      p = (if s.cfg.indirectAddsX then (hi.toNat * 256 + lo.toNat + s.x.toNat) % 65536 else hi.toNat * 256 + lo.toNat) →
      p2 = (if s.cfg.indirectPageWrapBug then p / 256 * 256 + (p % 256 + 1) % 256 else (p + 1) % 65536) →
      (resolve (.indirect lo hi) s).toNat = (Memory.read s.mem p2).toNat * 256 + (Memory.read s.mem p).toNat) ∧
    (∀ p p2 : Nat, p = (b.toNat + s.x.toNat) % 256 → p2 = (if s.cfg.zpPointerWrap then (p + 1) % 256 else p + 1) →
      (resolve (.indexedIndirect b) s).toNat = (Memory.read s.mem p2).toNat * 256 + (Memory.read s.mem p).toNat) ∧
    (∀ p2 : Nat, p2 = (if s.cfg.zpPointerWrap then (b.toNat + 1) % 256 else b.toNat + 1) →
      (resolve (.indirectIndexed b) s).toNat =
        ((Memory.read s.mem p2).toNat * 256 + (Memory.read s.mem b.toNat).toNat + s.y.toNat) % 65536)

/-- 40_decode_and_resolve.md R88, R89: the value an executed instruction works on is the operand's low byte in the immediate modes, the byte at the
effective address in the nine memory modes, and nothing in Implied and Accumulator. That Relative is an immediate mode, with its raw byte as value, is the
spec's decision D11 (log 14). -/
def Obligations.OperandValueFollowsItsClass : Prop :=
  ∀ (s : State) (o : Operand),
    operandValue o s =
      if o.mode = .immediate ∨ o.mode = .relative then some (BitVec.ofNat 8 (resolve o s).toNat)
      else if o.mode = .implied ∨ o.mode = .accumulator then none
      else some (s.readByte (resolve o s))

/-! ## The instructions -/

/-- 41_lda.md R100: every form of LDA completes, with the accumulator the operand value, N and Z from it, `pc` past the instruction, the step's result
`Ok`, and everything else unchanged: `x`, `y`, the other six flags, every byte of memory. (`pc` wraps by D1, log 3; the result field is log 4.) -/
def Obligations.LdaLoadsTheOperandValue : Prop :=
  ∀ (s : State) (o : Operand), wellFormed s.cfg (.lda o) = true →
    ∃ (v : Byte) (t : State), operandValue o s = some v ∧ exec (.lda o) s = .next t ∧
      t.a = v ∧ t.p.n = v.getLsbD 7 ∧ (t.p.z = true ↔ v = 0) ∧
      t.pc = s.pc + BitVec.ofNat 16 (1 + o.mode.byteLength) ∧ t.result = .ok ∧
      t.x = s.x ∧ t.y = s.y ∧ t.cfg = s.cfg ∧
      t.p.v = s.p.v ∧ t.p.bhi = s.p.bhi ∧ t.p.blo = s.p.blo ∧ t.p.d = s.p.d ∧ t.p.i = s.p.i ∧ t.p.c = s.p.c ∧
      ∀ addr : Word, t.readByte addr = s.readByte addr

/-- 42_adc.md R105: every form of ADC completes, with the accumulator the sum modulo 256 of its old value and the operand value and no carry-in (D5,
log 15), C from the unsigned sum, V from the signed sum, N and Z from the new accumulator, whatever the flags were, the decimal flag included; `pc` past the
instruction, the step's result `Ok`, and everything else unchanged. (`pc` wraps by D1, log 3; the result field is log 4.) -/
def Obligations.AdcAddsWithoutCarryIn : Prop :=
  ∀ (s : State) (o : Operand), wellFormed s.cfg (.adc o) = true →
    ∃ (m : Byte) (t : State), operandValue o s = some m ∧ exec (.adc o) s = .next t ∧
      t.a.toNat = (s.a.toNat + m.toNat) % 256 ∧
      (t.p.c = true ↔ s.a.toNat + m.toNat > 255) ∧
      (t.p.v = true ↔ (s.a.toInt + m.toInt > 127 ∨ s.a.toInt + m.toInt < -128)) ∧
      t.p.n = t.a.getLsbD 7 ∧ (t.p.z = true ↔ t.a = 0) ∧
      t.pc = s.pc + BitVec.ofNat 16 (1 + o.mode.byteLength) ∧ t.result = .ok ∧
      t.x = s.x ∧ t.y = s.y ∧ t.cfg = s.cfg ∧
      t.p.bhi = s.p.bhi ∧ t.p.blo = s.p.blo ∧ t.p.d = s.p.d ∧ t.p.i = s.p.i ∧
      ∀ addr : Word, t.readByte addr = s.readByte addr

/-- 43_pseudo_hlt_unknown.md R110: HLT completes with no change of state and the step's result `Ok`, and a parked core stays where it is for any number of
steps, each of them `Ok`. That it reports `Ok` is the spec's decision D19 (log 19). -/
def Obligations.HltChangesNothingAndParks : Prop :=
  (∀ s : State, exec .hlt s = .next { s with result := .ok }) ∧
  (∀ (k : Nat) (s : State), s.parked = true → okRun (k + 1) s = some { s with result := .ok })

/-- 43_pseudo_hlt_unknown.md R111, 60_exceptions.md R203: the step on an unknown opcode ends with UnimplementedOpcode carrying that byte and its address,
`pc` one further, all else kept. That `pc` stays there and how the error is delivered are the spec's decisions D4, D18 (log 4). -/
def Obligations.UnkRaisesUnimplementedOpcode : Prop :=
  ∀ (s : State) (b : Byte), Config.isUnassigned b = true → b ≠ s.cfg.haltOpcode →
    exec (.unk b) s = .next { s with pc := s.pc + 1, result := .unimplementedOpcode b s.pc }

/-- 44_decode_only_data.md R119, R120 to R138, 45_decode_only_control_system.md R149, R150 to R184: each of the 54 decode-only mnemonics, in each of its
forms, ends its step with UnimplementedOpcode carrying its own opcode byte and its address, `pc` past the whole instruction, and every register, flag and
memory byte kept: no store, no branch, no push, no flag operation, NOP included. That the outcome is this error is the spec's decision D3; how it is delivered, D4 and
D18 (log 4, 18). It covers LDX LDY STA STX STY AND ORA EOR SBC BIT CMP CPX CPY ASL LSR ROL ROR INC DEC BCC BCS BEQ BMI BNE BPL BVC BVS JMP JSR RTS RTI BRK CLC
CLD CLI CLV SEC SED SEI PHA PHP PLA PLP TAX TAY TSX TXA TXS TYA INX INY DEX DEY NOP. -/
def Obligations.DecodeOnlyMnemonicsRaiseUnimplementedOpcode : Prop :=
  ∀ (s : State) (i : Instr), wellFormed s.cfg i = true →
    i.mnemonic ≠ .lda → i.mnemonic ≠ .adc → i.mnemonic ≠ .hlt → i.mnemonic ≠ .unk →
    ∃ r ∈ opcodeTable, r.mnemonic = i.mnemonic ∧ r.mode = i.operand.mode ∧
      exec i s = .next { s with
        pc := s.pc + BitVec.ofNat 16 (1 + r.mode.byteLength)
        result := .unimplementedOpcode r.opcode s.pc }

/-- 46_step_and_lookahead.md R192, D24: a descriptor that decode cannot produce is refused, by name, in every state (log 9). -/
def Obligations.ImpossibleDescriptorsAreRefused : Prop :=
  ∀ (s : State) (i : Instr), i ≠ .hlt → wellFormed s.cfg i = false → exec i s = .refused .impossibleDescriptor

/-- The frame of every instruction (10_state.md R11, R12, R18; 20_memory.md R45): no instruction changes the parameters, `x`, `y`, Bhi, Blo, D, I or any
byte of memory; only LDA and ADC change the accumulator or any flag; LDA keeps V and C. -/
def Obligations.InstructionFrame : Prop :=
  ∀ (i : Instr) (s t : State), exec i s = .next t →
    t.cfg = s.cfg ∧ t.x = s.x ∧ t.y = s.y ∧
    t.p.bhi = s.p.bhi ∧ t.p.blo = s.p.blo ∧ t.p.d = s.p.d ∧ t.p.i = s.p.i ∧
    (∀ addr : Word, t.readByte addr = s.readByte addr) ∧
    (i.mnemonic ≠ .lda → i.mnemonic ≠ .adc → t.a = s.a ∧ t.p = s.p) ∧
    (i.mnemonic = .lda → t.p.v = s.p.v ∧ t.p.c = s.p.c)

/-! ## The step -/

/-- 46_step_and_lookahead.md R190: where the bytes from `pc` on decode to an instruction, the step is that instruction's execution from the same state; the
execution's own meaning moves `pc` past the instruction. Three bytes are enough for any instruction (R50). -/
def Obligations.StepRunsTheDecodedInstruction : Prop :=
  ∀ (s : State) (i : Instr) (rest : List Byte),
    decode s.cfg [s.readByte s.pc, s.readByte (s.pc + 1), s.readByte (s.pc + 2)] = .ok (i, rest) →
    wellFormed s.cfg i = true ∧ step s = exec i s

/-- A word stored where the step fetches is what the step runs (20_memory.md R43, 70_reset_and_hazards.md R234; log 7): after withFetchWord, in a state whose memory is
canonical, the very next step executes the instruction the word decodes to. -/
def Obligations.StoredWordIsTheNextInstruction : Prop :=
  ∀ (s : State) (nbits w : Nat) (i : Instr) (rest : List Byte), Memory.wf s.mem = true →
    decode s.cfg (tableWordBytes nbits w) = .ok (i, rest) →
    step (s.withFetchWord nbits w) = exec i (s.withFetchWord nbits w)

/-- 70_reset_and_hazards.md R241, 46_step_and_lookahead.md R191, 60_exceptions.md R202: the step function is total: from every state, with every memory
content and every choice of parameters, a step answers a next state. It never faults, so MalformedDecode cannot occur, and it never refuses (an error is a next state, log 4; log 10). -/
def Obligations.StepAlwaysAnswersNextState : Prop :=
  ∀ s : State, ∃ t : State, step s = .next t

/-- 60_exceptions.md R201, R203: whether a step raises UnimplementedOpcode depends on the opcode byte alone: it does exactly where the byte is neither LDA's,
ADC's nor the halt marker's; it carries that byte and its address; and it leaves everything but `pc` as before, `pc` past the instruction. (Delivery and
`pc` are the spec's decisions D4, D18; log 4.) -/
def Obligations.UnimplementedOpcodeDependsOnOpcodeByteAlone : Prop :=
  ∀ (s t : State) (m : Mnemonic) (mode : Mode), step s = .next t → opcodeMap s.cfg (s.readByte s.pc) = (m, mode) →
    if m = .lda ∨ m = .adc ∨ m = .hlt then t.result = .ok
    else t = { s with
      pc := s.pc + BitVec.ofNat 16 (1 + mode.byteLength)
      result := .unimplementedOpcode (s.readByte s.pc) s.pc }

/-- 10_state.md R14, 45_decode_only_control_system.md R149: no instruction transfers control: a step moves `pc` past the instruction at `pc`, modulo 65536 (D1,
log 3), and the halt marker leaves it. -/
def Obligations.StepMovesPcPastTheInstruction : Prop :=
  ∀ (s t : State) (m : Mnemonic) (mode : Mode), step s = .next t → opcodeMap s.cfg (s.readByte s.pc) = (m, mode) →
    t.pc = if m = .hlt then s.pc else s.pc + BitVec.ofNat 16 (1 + mode.byteLength)

/-- 70_reset_and_hazards.md R235: a step changes nothing, the result it returns apart, exactly where `pc` addresses the halt byte. The definition of a
normal end is the spec's decision D19 (log 19). -/
def Obligations.StepChangesNothingExactlyWhenParked : Prop :=
  ∀ s t : State, s.cfg.legal = true → step s = .next t →
    ({ t with result := s.result } = s ↔ s.readByte s.pc = s.cfg.haltOpcode)

/-- 10_state.md R18, 42_adc.md R105: no instruction reads a flag: with any other flags before it, a step does the same to everything but the flags, and
what LDA and ADC write to N, Z, and ADC to C, V, is the same too. That ADC does not read the carry is the spec's decision D5 (log 15). -/
def Obligations.NoInstructionReadsAFlag : Prop :=
  ∀ (s t : State) (q : Flags) (m : Mnemonic) (mode : Mode), step s = .next t →
    opcodeMap s.cfg (s.readByte s.pc) = (m, mode) →
    ∃ q' : Flags, step { s with p := q } = .next { t with p := q' } ∧
      (m = .lda → q' = { q with n := t.p.n, z := t.p.z }) ∧
      (m = .adc → q' = { q with n := t.p.n, v := t.p.v, z := t.p.z, c := t.p.c }) ∧
      (m ≠ .lda → m ≠ .adc → q' = q)

/-- 10_state.md R22: an error is not remembered: the result of the step before has no influence on a step. The field is the model's own (log 4). -/
def Obligations.EarlierResultIsNotRead : Prop :=
  ∀ (s : State) (r : StepResult), step { s with result := r } = step s

/-! ## What an operation reads -/

/-- 20_memory.md R45 (its table), 70_reset_and_hazards.md R241: how many bytes an instruction reads: a decode its own bytes and two pointer bytes in the three
indirect modes, at most 5; the execution one data byte in the memory modes of LDA and ADC, and none otherwise. The lists are the model's account of R37
(log 17). -/
def Obligations.AccessCounts : Prop :=
  ∀ (s : State) (i : Instr), wellFormed s.cfg i = true →
    (decodeReads i s).length = 1 + i.operandByteLength +
      (if i.operand.mode = .indirect ∨ i.operand.mode = .indexedIndirect ∨ i.operand.mode = .indirectIndexed then 2 else 0) ∧
    (decodeReads i s).length ≤ 5 ∧
    (dataReads i s).length =
      (if (i.mnemonic = .lda ∨ i.mnemonic = .adc) ∧ i.operand.mode ≠ .immediate then 1 else 0)

/-- 46_step_and_lookahead.md R197, 40_decode_and_resolve.md R91: a peek depends on memory through the instruction's bytes and its pointer bytes alone, and not on `a`, the flags or
the data byte: two states with the same `pc`, `x`, `y`, parameters and bytes there give equal descriptors. -/
def Obligations.PeekDependsOnItsReadsAlone : Prop :=
  ∀ (s s' : State) (i : Instr) (s1 : State), s.fetchInstr = some (i, s1) →
    s'.cfg = s.cfg → s'.pc = s.pc → s'.x = s.x → s'.y = s.y →
    (∀ addr ∈ decodeReads i s, s'.readByte addr = s.readByte addr) →
    ∃ d : Descriptor, peek s = some (d, s) ∧ peek s' = some (d, s')

/-- 20_memory.md R37, R45: a whole step depends on memory through its reads alone: with any other memory that holds the same bytes at those addresses, the step
answers the same registers, flags and result, and leaves that other memory as it is. -/
def Obligations.StepDependsOnItsReadsAlone : Prop :=
  ∀ (s t : State) (i : Instr) (s1 : State) (m' : Memory), s.fetchInstr = some (i, s1) → step s = .next t →
    (∀ addr ∈ stepReads i s, Memory.read m' addr.toNat = s.readByte addr) →
    step { s with mem := m' } = .next { t with mem := m' }

/-! ## Peek and the driver -/

/-- 40_decode_and_resolve.md R70, R72 to R74, 46_step_and_lookahead.md R193, R195: from every state peek returns a descriptor, with the opcode byte at `pc`, the mnemonic
and mode of the opcode map, the mode's operand length and the resolved operand of the bytes after the opcode; the decode inside it leaves `pc` past the
instruction and changes nothing else, and after the peek the state is as before. (Fixed operands and the fields of HLT and UNK are D11 to D13, log 14.) -/
def Obligations.PeekReturnsTheDescriptor : Prop :=
  ∀ s : State, ∃ d : Descriptor, peek s = some (d, s) ∧
    decodeHere s = some (d, { s with pc := s.pc + BitVec.ofNat 16 (1 + d.operandByteLength) }) ∧
    d.opcode = s.readByte s.pc ∧ (d.mnemonic, d.addressingMode) = opcodeMap s.cfg (s.readByte s.pc) ∧
    d.operandByteLength = d.addressingMode.byteLength ∧
    d.operand = resolve (Operand.ofMode d.addressingMode (s.readByte (s.pc + 1)) (s.readByte (s.pc + 2))) s

/-- 46_step_and_lookahead.md R194: peek never changes the state, two peeks in a row return equal descriptors, the descriptor is the one the next step decodes, and taking every
peek out of any sequence of operations leaves the same final state and the same replies to the other operations. Sequences with writes, reads and resets among
them, and the replies, are the model's form of the driver (log 6), and go beyond the rule's sentence. -/
def Obligations.PeekIsTransparent : Prop :=
  (∀ s : State, ∃ d : Descriptor, operate .peek s = .next (s, .descriptor d) ∧
    operateAll [.peek, .peek] s = .next (s, [.descriptor d, .descriptor d]) ∧
    ∃ i s', s.fetchInstr = some (i, s') ∧ step s = exec i s ∧ d = describe i s) ∧
  (∀ (ops : List DriverOp) (s t : State) (replies : List Reply), operateAll ops s = .next (t, replies) →
    operateAll (ops.filter fun op => op != .peek) s =
      .next (t, replies.filter fun r => !r.isDescriptor))

/-- 00_scope.md R3, R4, 70_reset_and_hazards.md R241: every operation of the driver completes from every state, and so does every sequence of them, with one reply to
each (log 6). -/
def Obligations.DriverOperationsAlwaysComplete : Prop :=
  ∀ (ops : List DriverOp) (s : State), ∃ (t : State) (replies : List Reply),
    operateAll ops s = .next (t, replies) ∧ replies.length = ops.length

/-- What a step returns to the driver is the result it leaves in the state (46_step_and_lookahead.md R191; log 4). -/
def Obligations.StepReplyIsItsResult : Prop :=
  ∀ s : State, ∃ t : State, step s = .next t ∧ operate .step s = .next (t, .stepped t.result)

/-! ## The invariant of reachable states -/

/-- 10_state.md R24, R25: the reset state meets the invariant: legal parameters, canonical memory, `x = y = 0`, and Bhi, Blo, D, I false (the
parameters' defaults and the memory's form are log 2, 8). -/
def Obligations.ResetMeetsReachable : Prop := State.reset.Reachable

/-- 10_state.md R18, R25, 20_memory.md R45: every step keeps the invariant (log 2, 8). -/
def Obligations.StepKeepsReachable : Prop :=
  ∀ s t : State, s.Reachable → step s = .next t → t.Reachable

/-- 10_state.md R25: every sequence of the driver's operations, resets and writes at any address among them, keeps the invariant, from any state that meets it;
so `x`, `y`, Bhi, Blo, D and I are as after reset in every state reachable from reset (log 2, 6, 8). -/
def Obligations.DriverOperationsKeepReachable : Prop :=
  ∀ (ops : List DriverOp) (s t : State) (replies : List Reply), s.Reachable →
    operateAll ops s = .next (t, replies) → t.Reachable

/-- 20_memory.md R45: no sequence of steps and peeks and reads changes any byte of memory, `x`, `y`, or any of Bhi, Blo, D, I, from any state at all. -/
def Obligations.OnlyHostWriteAndResetChangeMemory : Prop :=
  ∀ (ops : List DriverOp) (s t : State) (replies : List Reply),
    (∀ op ∈ ops, op ≠ .reset ∧ ∀ (addr : Word) (b : Byte), op ≠ .write addr b) →
    operateAll ops s = .next (t, replies) →
    t.mem = s.mem ∧ t.x = s.x ∧ t.y = s.y ∧ t.cfg = s.cfg ∧
      t.p.bhi = s.p.bhi ∧ t.p.blo = s.p.blo ∧ t.p.d = s.p.d ∧ t.p.i = s.p.i

/-- 60_exceptions.md R205: after an error the machine is in an ordinary state: a step after it does what it would do from the same registers, flags and memory
with no error before (`skip`), and its own result replaces the earlier one. The result field, the address the error reports and the `pc` past the failing instruction are the
spec's decisions D4, D18 and this model's choice (log 4). -/
def Obligations.SteppingAfterAnErrorSkipsTheInstruction : Prop :=
  ∀ (s t : State) (opcode : Byte) (origin : Word), step s = .next t → t.result = .unimplementedOpcode opcode origin →
    origin = s.pc ∧ opcode = s.readByte s.pc ∧
    ∃ u : State, step t = .next u ∧
      step { s with pc := s.pc + BitVec.ofNat 16 (1 + operandByteLengthOf s.cfg opcode), result := .ok } = .next u
end

