-- ==== Sys2Proof/Laws/Decode.lean ====
section
/-! SUPPORT. The opcode table agrees with itself and with the tables WellFormed and Config were written from; how an instruction is put together
from its parts; what the decoder answers on the bytes of an instruction. -/

namespace Sys2Proof

/-! ## The opcode table -/

/-- No two rows have one opcode byte: looking a row's byte up finds that row. -/
theorem rowOfOpcode_of_row : ∀ r ∈ opcodeTable, rowOfOpcode r.opcode = some r := by decide +kernel

/-- No two rows have one mnemonic and mode: looking a row's form up finds that row. -/
theorem rowOfForm_of_row : ∀ r ∈ opcodeTable, rowOfForm r.mnemonic r.mode = some r := by decide +kernel

/-- The forms of the opcode table are forms of the table by mnemonic. -/
theorem hasMode_of_row : ∀ r ∈ opcodeTable, r.mnemonic.hasMode r.mode = true ∧ r.mnemonic ≠ .hlt ∧ r.mnemonic ≠ .unk := by
  decide +kernel

/-- The bytes the table leaves out are the unassigned bytes of the spec's list. -/
theorem isUnassigned_eq_fin : ∀ n : Fin 256,
    Config.isUnassigned (BitVec.ofFin n) = (rowOfOpcode (BitVec.ofFin n)).isNone := by decide +kernel

theorem isUnassigned_eq (b : Byte) : Config.isUnassigned b = (rowOfOpcode b).isNone := by
  obtain ⟨n⟩ := b
  exact isUnassigned_eq_fin n

theorem rowOfOpcode_mem {b : Byte} {r : OpcodeRow} (h : rowOfOpcode b = some r) : r ∈ opcodeTable ∧ r.opcode = b := by
  unfold rowOfOpcode at h
  exact ⟨List.mem_of_find?_eq_some h, by simpa using List.find?_some h⟩

theorem rowOfForm_mem {m : Mnemonic} {mode : Mode} {r : OpcodeRow} (h : rowOfForm m mode = some r) :
    r ∈ opcodeTable ∧ r.mnemonic = m ∧ r.mode = mode := by
  unfold rowOfForm at h
  exact ⟨List.mem_of_find?_eq_some h, by simpa using List.find?_some h⟩

/-- The 56 legal mnemonics. -/
def legalMnemonics : List Mnemonic :=
  [.lda, .adc, .ldx, .ldy, .sta, .stx, .sty, .and, .ora, .eor, .sbc, .bit, .cmp, .cpx,
    .cpy, .asl, .lsr, .rol, .ror, .inc, .dec, .bcc, .bcs, .beq, .bmi, .bne, .bpl, .bvc,
    .bvs, .jmp, .jsr, .rts, .rti, .brk, .clc, .cld, .cli, .clv, .sec, .sed, .sei, .pha,
    .php, .pla, .plp, .tax, .tay, .tsx, .txa, .txs, .tya, .inx, .iny, .dex, .dey, .nop]

/-- The thirteen modes. -/
def allModes : List Mode :=
  [.immediate, .zeroPage, .zeroPageX, .zeroPageY, .absolute, .absoluteX, .absoluteY, .indirect, .indexedIndirect,
    .indirectIndexed, .implied, .accumulator, .relative]

theorem mem_legalMnemonics {m : Mnemonic} (hm : m ≠ .hlt) (hu : m ≠ .unk) : m ∈ legalMnemonics := by
  cases m <;> first | exact absurd rfl hm | exact absurd rfl hu | decide

theorem mem_allModes (mode : Mode) : mode ∈ allModes := by cases mode <;> decide

theorem rowOfForm_of_hasMode_listed :
    ∀ m ∈ legalMnemonics, ∀ mode ∈ allModes, m.hasMode mode = true → (rowOfForm m mode).isSome = true := by decide +kernel

/-- Every form of the table by mnemonic is a row of the opcode table. -/
theorem rowOfForm_of_hasMode {m : Mnemonic} {mode : Mode} (hm : m ≠ .hlt) (hu : m ≠ .unk) (h : m.hasMode mode = true) :
    (rowOfForm m mode).isSome = true :=
  rowOfForm_of_hasMode_listed m (mem_legalMnemonics hm hu) mode (mem_allModes mode) h

theorem hasMode_iff_rowOfForm {m : Mnemonic} (mode : Mode) (hm : m ≠ .hlt) (hu : m ≠ .unk) :
    m.hasMode mode = true ↔ ∃ r, rowOfForm m mode = some r := by
  refine ⟨fun h => Option.isSome_iff_exists.mp (rowOfForm_of_hasMode hm hu h), fun ⟨r, h⟩ => ?_⟩
  obtain ⟨hr, rfl, rfl⟩ := rowOfForm_mem h
  exact (hasMode_of_row r hr).1

/-- What the opcode map answers: the row of a legal byte, HLT at the halt byte, else UNK. -/
theorem opcodeMap_of_row {cfg : Config} {r : OpcodeRow} (h : r ∈ opcodeTable) :
    opcodeMap cfg r.opcode = (r.mnemonic, r.mode) := by
  simp [opcodeMap, rowOfOpcode_of_row r h]

theorem opcodeMap_of_unassigned {cfg : Config} {b : Byte} (h : rowOfOpcode b = none) :
    opcodeMap cfg b = if b = cfg.haltOpcode then (.hlt, .implied) else (.unk, .implied) := by
  simp [opcodeMap, h]

/-! ## Instructions and their parts -/

theorem Operand.ofMode_self (o : Operand) : Operand.ofMode o.mode o.byte1 o.byte2 = o := by cases o <;> rfl

@[simp] theorem Operand.mode_ofMode (mode : Mode) (b1 b2 : Byte) : (Operand.ofMode mode b1 b2).mode = mode := by
  cases mode <;> rfl

@[simp] theorem Operand.length_bytes (o : Operand) : o.bytes.length = o.mode.byteLength := by cases o <;> rfl

/-- An instruction is what its own parts make. -/
theorem Instr.ofParts_self (i : Instr) (opcode : Byte) (h : ∀ b, i = .unk b → b = opcode) :
    Instr.ofParts i.mnemonic opcode i.operand = i := by
  cases i <;> first | rfl | (rename_i b; rw [h b rfl]; rfl)

/-- The parts of a made instruction, where the mnemonic has the mode. -/
theorem Instr.mnemonic_ofParts (m : Mnemonic) (opcode : Byte) (o : Operand) : (Instr.ofParts m opcode o).mnemonic = m := by
  cases m <;> rfl

theorem Instr.operand_ofParts {m : Mnemonic} (opcode : Byte) {o : Operand} (h : m.hasMode o.mode = true) :
    (Instr.ofParts m opcode o).operand = o := by
  revert h
  cases m <;> cases o <;> first | (intro _; rfl) | (intro h; exact Bool.noConfusion h)

theorem Instr.eq_hlt {i : Instr} (h : i.mnemonic = .hlt) : i = .hlt := by
  cases i <;> first | rfl | exact Mnemonic.noConfusion h

theorem Instr.eq_unk {i : Instr} (h : i.mnemonic = .unk) : ∃ b, i = .unk b := by
  cases i <;> first | exact ⟨_, rfl⟩ | exact Mnemonic.noConfusion h

/-- For the 56 legal mnemonics the opcode byte is the table's, whatever the parameters. -/
theorem opcodeOf_legal (cfg : Config) {i : Instr} (hh : i.mnemonic ≠ .hlt) (hu : i.mnemonic ≠ .unk) :
    opcodeOf cfg i = (rowOfForm i.mnemonic i.operand.mode).map OpcodeRow.opcode ∧
      wellFormed cfg i = i.mnemonic.hasMode i.operand.mode := by
  cases i <;> first | exact ⟨rfl, rfl⟩ | exact absurd rfl hh | exact absurd rfl hu

/-- HLT's opcode byte is HALT_OPCODE, where that is legal. -/
theorem opcodeOf_hlt (cfg : Config) : opcodeOf cfg .hlt = if cfg.legal then some cfg.haltOpcode else none := by
  simp only [opcodeOf, Config.legal, isUnassigned_eq]
  cases rowOfOpcode cfg.haltOpcode <;> rfl

/-- UNK's opcode byte is the byte it carries, where that is neither assigned nor the halt byte. -/
theorem opcodeOf_unk (cfg : Config) (b : Byte) :
    opcodeOf cfg (.unk b) = if wellFormed cfg (.unk b) then some b else none := by
  simp only [opcodeOf, wellFormed, isUnassigned_eq]
  cases rowOfOpcode b <;> by_cases h : b = cfg.haltOpcode <;> simp [h]

/-- An instruction has an opcode byte exactly where it is well formed. -/
theorem wellFormed_iff_opcodeOf (cfg : Config) (i : Instr) :
    wellFormed cfg i = true ↔ ∃ opcode, opcodeOf cfg i = some opcode := by
  by_cases hh : i.mnemonic = .hlt
  · rw [Instr.eq_hlt hh, opcodeOf_hlt]
    cases h : cfg.legal <;> simp [wellFormed, h]
  · by_cases hu : i.mnemonic = .unk
    · obtain ⟨b, rfl⟩ := Instr.eq_unk hu
      rw [opcodeOf_unk]
      cases h : wellFormed cfg (.unk b) <;> simp
    · obtain ⟨h1, h2⟩ := opcodeOf_legal cfg hh hu
      rw [h1, h2, hasMode_iff_rowOfForm _ hh hu]
      cases rowOfForm i.mnemonic i.operand.mode <;> simp

/-- The opcode byte of an instruction is mapped to its mnemonic and mode; UNK's is the byte it carries. -/
theorem opcodeMap_of_opcodeOf {cfg : Config} {i : Instr} {opcode : Byte} (h : opcodeOf cfg i = some opcode) :
    opcodeMap cfg opcode = (i.mnemonic, i.operand.mode) ∧ ∀ b, i = .unk b → b = opcode := by
  by_cases hh : i.mnemonic = .hlt
  · have hi := Instr.eq_hlt hh
    subst hi
    rw [opcodeOf_hlt] at h
    by_cases hl : cfg.legal = true
    · simp only [hl, if_true, Option.some.injEq] at h
      subst h
      simp only [Config.legal, isUnassigned_eq, Option.isNone_iff_eq_none] at hl
      exact ⟨by rw [opcodeMap_of_unassigned hl]; simp [Instr.mnemonic, Instr.operand, Operand.mode], by simp⟩
    · simp [hl] at h
  · by_cases hu : i.mnemonic = .unk
    · obtain ⟨b, rfl⟩ := Instr.eq_unk hu
      rw [opcodeOf_unk] at h
      by_cases hw : wellFormed cfg (.unk b) = true
      · simp only [hw, if_true, Option.some.injEq] at h
        subst h
        simp only [wellFormed, isUnassigned_eq, Bool.and_eq_true, Option.isNone_iff_eq_none, bne_iff_ne] at hw
        exact ⟨by rw [opcodeMap_of_unassigned hw.1, if_neg hw.2]; rfl, by simp⟩
      · simp [hw] at h
    · rw [(opcodeOf_legal cfg hh hu).1, Option.map_eq_some_iff] at h
      obtain ⟨r, hr, rfl⟩ := h
      obtain ⟨hmem, h1, h2⟩ := rowOfForm_mem hr
      exact ⟨by rw [opcodeMap_of_row hmem, h1, h2], fun b e => absurd (by rw [e]; rfl) hu⟩

/-- Every opcode byte, with operand bytes for its mode, makes an instruction of that opcode byte, that mnemonic and that operand. -/
theorem opcodeOf_ofParts (cfg : Config) (opcode : Byte) (o : Operand) (h : o.mode = (opcodeMap cfg opcode).2) :
    opcodeOf cfg (Instr.ofParts (opcodeMap cfg opcode).1 opcode o) = some opcode ∧
      (Instr.ofParts (opcodeMap cfg opcode).1 opcode o).mnemonic = (opcodeMap cfg opcode).1 ∧
      (Instr.ofParts (opcodeMap cfg opcode).1 opcode o).operand = o := by
  refine ⟨?_, Instr.mnemonic_ofParts _ _ _, ?_⟩
  · cases hr : rowOfOpcode opcode with
    | some r =>
      obtain ⟨hmem, rfl⟩ := rowOfOpcode_mem hr
      rw [opcodeMap_of_row hmem] at h ⊢
      obtain ⟨hm, hh, hu⟩ := hasMode_of_row r hmem
      simp only at h
      rw [← h] at hm
      have ho := Instr.operand_ofParts r.opcode hm
      have hn := Instr.mnemonic_ofParts r.mnemonic r.opcode o
      rw [(opcodeOf_legal cfg (by rw [hn]; exact hh) (by rw [hn]; exact hu)).1, hn, ho, h, rowOfForm_of_row r hmem]
      rfl
    | none =>
      rw [opcodeMap_of_unassigned hr]
      by_cases hb : opcode = cfg.haltOpcode
      · subst hb
        simp [Instr.ofParts, opcodeOf, hr]
      · simp [hb, Instr.ofParts, opcodeOf, hr]
  · cases hr : rowOfOpcode opcode with
    | some r =>
      obtain ⟨hmem, rfl⟩ := rowOfOpcode_mem hr
      rw [opcodeMap_of_row hmem] at h ⊢
      simp only at h
      exact Instr.operand_ofParts _ (by rw [h]; exact (hasMode_of_row r hmem).1)
    | none =>
      rw [opcodeMap_of_unassigned hr] at h ⊢
      by_cases hb : opcode = cfg.haltOpcode <;> simp only [hb, if_true, if_false] at h ⊢ <;>
        exact Instr.operand_ofParts _ (by rw [h]; rfl)

/-! ## The decoder -/

/-- The decoder on an opcode byte, the operand bytes its mode asks for, and what follows. -/
theorem decode_cons (cfg : Config) (opcode : Byte) (o : Operand) (rest : List Byte) (h : o.mode = (opcodeMap cfg opcode).2) :
    decode cfg (opcode :: (o.bytes ++ rest)) = .ok (Instr.ofParts (opcodeMap cfg opcode).1 opcode o, rest) := by
  simp only [decode]
  generalize opcodeMap cfg opcode = pair at h ⊢
  obtain ⟨m, mode⟩ := pair
  simp only at h
  subst h
  cases o <;> rfl

/-- Any operand bytes of the length a mode asks for are the bytes of an operand of that mode. -/
theorem Operand.exists_bytes (mode : Mode) (bs : List Byte) (h : bs.length = mode.byteLength) :
    ∃ o : Operand, o.mode = mode ∧ o.bytes = bs ∧ o = Operand.ofMode mode (bs.headD 0) (bs.tail.headD 0) := by
  refine ⟨Operand.ofMode mode (bs.headD 0) (bs.tail.headD 0), Operand.mode_ofMode _ _ _, ?_, rfl⟩
  match bs, h with
  | [], h => cases mode <;> first | rfl | exact absurd h (by decide)
  | [b], h => cases mode <;> first | rfl | exact absurd h (by simp [Mode.byteLength])
  | [b, c], h => cases mode <;> first | rfl | exact absurd h (by simp [Mode.byteLength])
  | _ :: _ :: _ :: _, h => cases mode <;> simp [Mode.byteLength] at h

end Sys2Proof
end

