-- ==== Sys2Proof/Laws/State.lean ====
section
/-! SUPPORT. One lemma per field per update of State, true by rfl, so that no proof unfolds a record update. -/

namespace Sys2Proof.Machine

variable (s : State)

@[simp] theorem State.advance_cfg (n : Nat) : (s.advance n).cfg = s.cfg := rfl
@[simp] theorem State.advance_a (n : Nat) : (s.advance n).a = s.a := rfl
@[simp] theorem State.advance_x (n : Nat) : (s.advance n).x = s.x := rfl
@[simp] theorem State.advance_y (n : Nat) : (s.advance n).y = s.y := rfl
@[simp] theorem State.advance_pc (n : Nat) : (s.advance n).pc = s.pc + BitVec.ofNat 16 n := rfl
@[simp] theorem State.advance_p (n : Nat) : (s.advance n).p = s.p := rfl
@[simp] theorem State.advance_mem (n : Nat) : (s.advance n).mem = s.mem := rfl
@[simp] theorem State.advance_result (n : Nat) : (s.advance n).result = s.result := rfl
@[simp] theorem State.readByte_advance (n : Nat) (addr : Word) : (s.advance n).readByte addr = s.readByte addr := rfl

@[simp] theorem State.rewind_cfg (n : Nat) : (s.rewind n).cfg = s.cfg := rfl
@[simp] theorem State.rewind_a (n : Nat) : (s.rewind n).a = s.a := rfl
@[simp] theorem State.rewind_x (n : Nat) : (s.rewind n).x = s.x := rfl
@[simp] theorem State.rewind_y (n : Nat) : (s.rewind n).y = s.y := rfl
@[simp] theorem State.rewind_pc (n : Nat) : (s.rewind n).pc = s.pc - BitVec.ofNat 16 n := rfl
@[simp] theorem State.rewind_p (n : Nat) : (s.rewind n).p = s.p := rfl
@[simp] theorem State.rewind_mem (n : Nat) : (s.rewind n).mem = s.mem := rfl
@[simp] theorem State.rewind_result (n : Nat) : (s.rewind n).result = s.result := rfl
@[simp] theorem State.readByte_rewind (n : Nat) (addr : Word) : (s.rewind n).readByte addr = s.readByte addr := rfl

@[simp] theorem State.setA_cfg (v : Byte) : (s.setA v).cfg = s.cfg := rfl
@[simp] theorem State.setA_a (v : Byte) : (s.setA v).a = v := rfl
@[simp] theorem State.setA_x (v : Byte) : (s.setA v).x = s.x := rfl
@[simp] theorem State.setA_y (v : Byte) : (s.setA v).y = s.y := rfl
@[simp] theorem State.setA_pc (v : Byte) : (s.setA v).pc = s.pc := rfl
@[simp] theorem State.setA_p (v : Byte) : (s.setA v).p = s.p := rfl
@[simp] theorem State.setA_mem (v : Byte) : (s.setA v).mem = s.mem := rfl
@[simp] theorem State.setA_result (v : Byte) : (s.setA v).result = s.result := rfl
@[simp] theorem State.readByte_setA (v : Byte) (addr : Word) : (s.setA v).readByte addr = s.readByte addr := rfl

@[simp] theorem State.setP_cfg (q : Flags) : (s.setP q).cfg = s.cfg := rfl
@[simp] theorem State.setP_a (q : Flags) : (s.setP q).a = s.a := rfl
@[simp] theorem State.setP_x (q : Flags) : (s.setP q).x = s.x := rfl
@[simp] theorem State.setP_y (q : Flags) : (s.setP q).y = s.y := rfl
@[simp] theorem State.setP_pc (q : Flags) : (s.setP q).pc = s.pc := rfl
@[simp] theorem State.setP_p (q : Flags) : (s.setP q).p = q := rfl
@[simp] theorem State.setP_mem (q : Flags) : (s.setP q).mem = s.mem := rfl
@[simp] theorem State.setP_result (q : Flags) : (s.setP q).result = s.result := rfl
@[simp] theorem State.readByte_setP (q : Flags) (addr : Word) : (s.setP q).readByte addr = s.readByte addr := rfl

@[simp] theorem State.setResult_cfg (r : StepResult) : (s.setResult r).cfg = s.cfg := rfl
@[simp] theorem State.setResult_a (r : StepResult) : (s.setResult r).a = s.a := rfl
@[simp] theorem State.setResult_x (r : StepResult) : (s.setResult r).x = s.x := rfl
@[simp] theorem State.setResult_y (r : StepResult) : (s.setResult r).y = s.y := rfl
@[simp] theorem State.setResult_pc (r : StepResult) : (s.setResult r).pc = s.pc := rfl
@[simp] theorem State.setResult_p (r : StepResult) : (s.setResult r).p = s.p := rfl
@[simp] theorem State.setResult_mem (r : StepResult) : (s.setResult r).mem = s.mem := rfl
@[simp] theorem State.setResult_result (r : StepResult) : (s.setResult r).result = r := rfl
@[simp] theorem State.readByte_setResult (r : StepResult) (addr : Word) : (s.setResult r).readByte addr = s.readByte addr := rfl

@[simp] theorem State.writeByte_cfg (k : Word) (b : Byte) : (s.writeByte k b).cfg = s.cfg := rfl
@[simp] theorem State.writeByte_a (k : Word) (b : Byte) : (s.writeByte k b).a = s.a := rfl
@[simp] theorem State.writeByte_x (k : Word) (b : Byte) : (s.writeByte k b).x = s.x := rfl
@[simp] theorem State.writeByte_y (k : Word) (b : Byte) : (s.writeByte k b).y = s.y := rfl
@[simp] theorem State.writeByte_pc (k : Word) (b : Byte) : (s.writeByte k b).pc = s.pc := rfl
@[simp] theorem State.writeByte_p (k : Word) (b : Byte) : (s.writeByte k b).p = s.p := rfl
@[simp] theorem State.writeByte_mem (k : Word) (b : Byte) : (s.writeByte k b).mem = Memory.write s.mem k.toNat b := rfl
@[simp] theorem State.writeByte_result (k : Word) (b : Byte) : (s.writeByte k b).result = s.result := rfl

@[simp] theorem State.fetch8_fst : s.fetch8.1 = s.readByte s.pc := rfl
@[simp] theorem State.fetch8_snd : s.fetch8.2 = s.advance 1 := rfl

@[simp] theorem State.resetAgain_cfg : s.resetAgain.cfg = s.cfg := rfl
@[simp] theorem State.resetAgain_a : s.resetAgain.a = 0 := rfl
@[simp] theorem State.resetAgain_x : s.resetAgain.x = 0 := rfl
@[simp] theorem State.resetAgain_y : s.resetAgain.y = 0 := rfl
@[simp] theorem State.resetAgain_pc : s.resetAgain.pc = 0 := rfl
@[simp] theorem State.resetAgain_p : s.resetAgain.p = Flags.clear := rfl
@[simp] theorem State.resetAgain_mem : s.resetAgain.mem = [] := rfl
@[simp] theorem State.resetAgain_result : s.resetAgain.result = .ok := rfl

@[simp] theorem State.advance_zero : s.advance 0 = s := by
  cases s; simp [State.advance]

theorem State.advance_advance (m n : Nat) : (s.advance m).advance n = s.advance (m + n) := by
  cases s; simp [State.advance, BitVec.add_assoc, BitVec.ofNat_add]

theorem State.rewind_advance (n : Nat) : (s.advance n).rewind n = s := by
  cases s; simp [State.advance, State.rewind]

end Sys2Proof.Machine
end

