-- ==== Sys2Proof/Laws/Operands.lean ====
section
/-! SUPPORT. What the resolver depends on: x, y, the parameters and the pointer bytes, and nothing else. -/

namespace Sys2Proof.Machine

/-- Resolving reads `cfg`, `x`, `y` and the bytes at `pointerReads`, and nothing else (40_decode_and_resolve.md R90, R91). -/
theorem resolve_congr {o : Operand} {s s' : State} (hc : s'.cfg = s.cfg) (hx : s'.x = s.x) (hy : s'.y = s.y)
    (hm : ∀ addr ∈ pointerReads o s, s'.readByte addr = s.readByte addr) : resolve o s' = resolve o s := by
  cases o <;> simp_all [resolve, pointerReads, readPointer, indirectPointer]

/-- The pointer addresses depend on `cfg` and `x` alone. -/
theorem pointerReads_congr {o : Operand} {s s' : State} (hc : s'.cfg = s.cfg) (hx : s'.x = s.x) :
    pointerReads o s' = pointerReads o s := by
  cases o <;> simp_all [pointerReads, indirectPointer]

@[simp] theorem resolve_advance (o : Operand) (s : State) (n : Nat) : resolve o (s.advance n) = resolve o s :=
  resolve_congr rfl rfl rfl fun _ _ => rfl

@[simp] theorem resolve_setResult (o : Operand) (s : State) (r : StepResult) : resolve o (s.setResult r) = resolve o s :=
  resolve_congr rfl rfl rfl fun _ _ => rfl

@[simp] theorem resolve_setP (o : Operand) (s : State) (q : Flags) : resolve o (s.setP q) = resolve o s :=
  resolve_congr rfl rfl rfl fun _ _ => rfl

/-- The operand value reads what the resolver reads, and in the memory modes the byte at the effective address. -/
theorem operandValue_congr {o : Operand} {s s' : State} (hr : resolve o s' = resolve o s)
    (hm : classOf o.mode = .address → s'.readByte (resolve o s) = s.readByte (resolve o s)) :
    operandValue o s' = operandValue o s := by
  simp only [operandValue, hr]
  cases h : classOf o.mode <;> simp_all

/-- Every mode but Implied and Accumulator has an operand value. -/
theorem operandValue_isSome {o : Operand} (s : State) (h : o.mode ≠ .implied) (h' : o.mode ≠ .accumulator) :
    ∃ v, operandValue o s = some v := by
  revert h h'
  cases o <;> simp [operandValue, classOf, Operand.mode]

/-- A well-formed LDA or ADC has an operand value. -/
theorem operandValue_of_hasMode {m : Mnemonic} {o : Operand} (s : State) (hm : m = .lda ∨ m = .adc) (h : m.hasMode o.mode = true) :
    ∃ v, operandValue o s = some v := by
  apply operandValue_isSome <;> intro hmode <;> rw [hmode] at h <;> rcases hm with rfl | rfl <;> exact absurd h (by decide)

end Sys2Proof.Machine
end

