-- ==== Sys2Proof/Laws/Ops.lean ====
section
/-! SUPPORT. What fetching does, said once: every state has an instruction at `pc`, made of the bytes there. -/

namespace Sys2Proof.Machine

@[simp] theorem addressesFrom_length (a : Word) (n : Nat) : (addressesFrom a n).length = n := by
  induction n generalizing a with
  | zero => rfl
  | succ n ih => simp [addressesFrom, ih]

/-- `fetchBytes` reads successive bytes and leaves `pc` after them. -/
theorem State.fetchBytes_eq (s : State) (n : Nat) :
    s.fetchBytes n = ((addressesFrom s.pc n).map s.readByte, s.advance n) := by
  induction n generalizing s with
  | zero => simp [State.fetchBytes, addressesFrom]
  | succ n ih =>
    simp only [State.fetchBytes, State.fetch8_fst, State.fetch8_snd, ih, State.advance_advance]
    simp only [addressesFrom, List.map_cons, State.advance_pc, Nat.add_comm 1 n]
    rfl

/-- The bytes of the instruction at `pc`, and `pc` after them. -/
theorem State.fetchInstrBytes_eq (s : State) :
    s.fetchInstrBytes =
      (s.readByte s.pc :: (addressesFrom (s.pc + 1) (operandByteLengthOf s.cfg (s.readByte s.pc))).map s.readByte,
        s.advance (1 + operandByteLengthOf s.cfg (s.readByte s.pc))) := by
  simp only [State.fetchInstrBytes, State.fetch8_fst, State.fetch8_snd, State.fetchBytes_eq, State.advance_advance]
  rfl

/-- The instruction at `pc`: it always exists, has the opcode byte at `pc`, the operand bytes after it, the mnemonic and mode of the opcode map,
and the fetch leaves `pc` just past it (40_decode_and_resolve.md R70, R74; 30_encoding.md R58). -/
theorem State.fetchInstr_spec (s : State) :
    ∃ i, s.fetchInstr = some (i, s.advance i.length) ∧ opcodeOf s.cfg i = some (s.readByte s.pc) ∧
      i.mnemonic = (opcodeMap s.cfg (s.readByte s.pc)).1 ∧ i.operand.mode = (opcodeMap s.cfg (s.readByte s.pc)).2 ∧
      i.operand.bytes = (addressesFrom (s.pc + 1) i.operandByteLength).map s.readByte := by
  obtain ⟨o, hmode, hbytes, -⟩ := Operand.exists_bytes (opcodeMap s.cfg (s.readByte s.pc)).2
    ((addressesFrom (s.pc + 1) (operandByteLengthOf s.cfg (s.readByte s.pc))).map s.readByte)
    (by simp [operandByteLengthOf])
  obtain ⟨hop, hmn, hopd⟩ := opcodeOf_ofParts s.cfg (s.readByte s.pc) o hmode
  refine ⟨_, ?_, hop, hmn, by rw [hopd, hmode], ?_⟩
  · have hlen : (Instr.ofParts (opcodeMap s.cfg (s.readByte s.pc)).1 (s.readByte s.pc) o).length =
        1 + operandByteLengthOf s.cfg (s.readByte s.pc) := by
      simp only [Instr.length, Instr.operandByteLength, hopd, hmode, operandByteLengthOf]
    have hdec := decode_cons s.cfg (s.readByte s.pc) o [] hmode
    rw [List.append_nil, hbytes] at hdec
    simp only [State.fetchInstr, State.fetchInstrBytes_eq, hdec, hlen, List.length_cons, List.length_map,
      addressesFrom_length, Nat.add_comm 1, and_self, if_true]
  · rw [hopd, hbytes]
    simp only [Instr.operandByteLength, hopd, hmode, operandByteLengthOf]

/-- The instruction at `pc` is well formed. -/
theorem State.fetchInstr_wellFormed {s s' : State} {i : Instr} (h : s.fetchInstr = some (i, s')) :
    wellFormed s.cfg i = true := by
  obtain ⟨j, hj, hop, -⟩ := s.fetchInstr_spec
  rw [hj] at h
  cases h
  exact (wellFormed_iff_opcodeOf _ _).mpr ⟨_, hop⟩

/-- The instruction at `pc` depends on its own bytes, `pc` and the parameters alone (40_decode_and_resolve.md R91). -/
theorem State.fetchInstr_congr {s s' u : State} {i : Instr} (hc : s'.cfg = s.cfg) (hp : s'.pc = s.pc)
    (h : s.fetchInstr = some (i, u)) (hm : ∀ addr ∈ addressesFrom s.pc i.length, s'.readByte addr = s.readByte addr) :
    s'.fetchInstr = some (i, s'.advance i.length) := by
  obtain ⟨j, hj, hop, h1, h2, h3⟩ := s.fetchInstr_spec
  rw [hj] at h
  cases h
  obtain ⟨k, hk, kop, k1, k2, k3⟩ := s'.fetchInstr_spec
  have hmem : addressesFrom s.pc i.length = s.pc :: addressesFrom (s.pc + 1) i.operandByteLength := by
    rw [Instr.length, Nat.add_comm, addressesFrom]
  rw [hmem] at hm
  rw [hp, hm _ List.mem_cons_self] at kop k1 k2
  rw [hc] at kop k1 k2
  have hbytes : k.operand.bytes = i.operand.bytes := by
    rw [k3, h3, Instr.operandByteLength, k2, ← h2, hp]
    exact List.map_congr_left fun a ha => hm a (List.mem_cons_of_mem _ ha)
  have hopd : k.operand = i.operand := by
    rw [← Operand.ofMode_self k.operand, ← Operand.ofMode_self i.operand]
    simp [Operand.byte1, Operand.byte2, hbytes, k2, h2]
  have hki : k = i := by
    rw [← Instr.ofParts_self k _ (opcodeMap_of_opcodeOf kop).2, ← Instr.ofParts_self i _ (opcodeMap_of_opcodeOf hop).2,
      k1, h1, hopd]
  rw [← hki]
  exact hk

/-- What raising UnimplementedOpcode answers. -/
theorem raiseUnimplemented_eq (opcode : Byte) (n : Nat) (s : State) :
    raiseUnimplemented opcode n s = .next ((s.advance n).setResult (.unimplementedOpcode opcode s.pc)) := rfl

/-- What a meaning without an execution rule answers on a well-formed instruction. -/
theorem raiseForDecodeOnly_of_opcodeOf {i : Instr} {s : State} {opcode : Byte} (h : opcodeOf s.cfg i = some opcode) :
    raiseForDecodeOnly i s = .next ((s.advance i.length).setResult (.unimplementedOpcode opcode s.pc)) := by
  simp [raiseForDecodeOnly, h, raiseUnimplemented_eq]

end Sys2Proof.Machine
end

