-- ==== Sys2Proof/Laws/Driver.lean ====
section
/-! SUPPORT. What peek answers, and a sequence of the driver's operations taken one operation at a time. -/

namespace Sys2Proof.Machine

/-- peek answers the descriptor of the instruction at `pc`, and the state as it was. -/
theorem peek_of_fetchInstr {s : State} {i : Instr} (h : s.fetchInstr = some (i, s.advance i.length)) :
    peek s = some (describe i s, s) := by
  simp only [peek, decodeHere, h, Option.map_some]
  rw [show 1 + (describe i s).operandByteLength = i.length from rfl, State.rewind_advance]

/-- A sequence answers a next state exactly where its first operation does and the rest does from there. -/
theorem operateAll_cons {op : DriverOp} {ops : List DriverOp} {s t : State} {replies : List Reply} :
    operateAll (op :: ops) s = .next (t, replies) ↔
      ∃ u reply rest, operate op s = .next (u, reply) ∧ operateAll ops u = .next (t, rest) ∧ replies = reply :: rest := by
  constructor
  · intro h
    unfold operateAll at h
    split at h
    · rename_i u reply h1
      split at h
      · rename_i v rest h2
        cases h
        exact ⟨u, reply, rest, h1, h2, rfl⟩
      · cases h
      · cases h
    · cases h
    · cases h
  · rintro ⟨u, reply, rest, h1, h2, rfl⟩
    simp only [operateAll, h1, h2]

end Sys2Proof.Machine
end

