-- ==== Sys2Proof/Laws/Flags.lean ====
section
/-! SUPPORT. The flag computations, field by field. -/

namespace Sys2Proof.Machine

variable (p : Flags) (v a m : Byte)

@[simp] theorem Flags.setNegativeZero_n : (p.setNegativeZero v).n = v.msb := rfl
@[simp] theorem Flags.setNegativeZero_z : (p.setNegativeZero v).z = (v == 0) := rfl
@[simp] theorem Flags.setNegativeZero_v : (p.setNegativeZero v).v = p.v := rfl
@[simp] theorem Flags.setNegativeZero_c : (p.setNegativeZero v).c = p.c := rfl
@[simp] theorem Flags.setNegativeZero_d : (p.setNegativeZero v).d = p.d := rfl
@[simp] theorem Flags.setNegativeZero_i : (p.setNegativeZero v).i = p.i := rfl
@[simp] theorem Flags.setNegativeZero_bhi : (p.setNegativeZero v).bhi = p.bhi := rfl
@[simp] theorem Flags.setNegativeZero_blo : (p.setNegativeZero v).blo = p.blo := rfl

@[simp] theorem Flags.afterAdd_n : (p.afterAdd a m).n = (a + m).msb := rfl
@[simp] theorem Flags.afterAdd_z : (p.afterAdd a m).z = (a + m == 0) := rfl
@[simp] theorem Flags.afterAdd_v : (p.afterAdd a m).v = addOverflow a m := rfl
@[simp] theorem Flags.afterAdd_c : (p.afterAdd a m).c = addCarry a m := rfl
@[simp] theorem Flags.afterAdd_d : (p.afterAdd a m).d = p.d := rfl
@[simp] theorem Flags.afterAdd_i : (p.afterAdd a m).i = p.i := rfl
@[simp] theorem Flags.afterAdd_bhi : (p.afterAdd a m).bhi = p.bhi := rfl
@[simp] theorem Flags.afterAdd_blo : (p.afterAdd a m).blo = p.blo := rfl

end Sys2Proof.Machine
end

