-- ==== Sys2Proof/Laws/Memory.lean ====
section
/-! SUPPORT. The laws of memory: the canonical form is kept by every operation, a read after a write, and a write leaves every other address alone. -/

namespace Sys2Proof.Machine

/-! ## The canonical form -/

theorem Memory.wfFrom_cons {low k : Nat} {b : Byte} {rest : Memory} :
    Memory.wfFrom low ((k, b) :: rest) = true ↔
      low ≤ k ∧ k < 65536 ∧ b ≠ Memory.blank ∧ Memory.wfFrom (k + 1) rest = true := by
  simp [Memory.wfFrom, and_assoc]

theorem Memory.wfFrom_mono {low low' : Nat} {m : Memory} (h : low' ≤ low) (hm : Memory.wfFrom low m = true) :
    Memory.wfFrom low' m = true := by
  cases m with
  | nil => rfl
  | cons c rest =>
    obtain ⟨k, b⟩ := c
    rw [Memory.wfFrom_cons] at *
    exact ⟨h.trans hm.1, hm.2⟩

/-- An address below every listed one reads as blank. -/
theorem Memory.read_below {m : Memory} {low k : Nat} (hm : Memory.wfFrom low m = true) (h : k < low) :
    Memory.read m k = Memory.blank := by
  induction m generalizing low with
  | nil => rfl
  | cons c rest ih =>
    obtain ⟨k', b⟩ := c
    rw [Memory.wfFrom_cons] at hm
    have hne : k' ≠ k := by omega
    simp only [Memory.read, if_neg hne]
    exact ih hm.2.2.2 (by omega)

theorem Memory.write_wfFrom {m : Memory} {low k : Nat} (b : Byte) (hm : Memory.wfFrom low m = true) (hlow : low ≤ k)
    (hk : k < 65536) : Memory.wfFrom low (Memory.write m k b) = true := by
  induction m generalizing low with
  | nil =>
    by_cases hb : b = Memory.blank
    · simp [Memory.write, hb, Memory.wfFrom]
    · simp [Memory.write, hb, Memory.wfFrom, hlow, hk]
  | cons c rest ih =>
    obtain ⟨k', b'⟩ := c
    have h := Memory.wfFrom_cons.mp hm
    rcases Nat.lt_trichotomy k k' with hlt | heq | hgt
    · by_cases hb : b = Memory.blank
      · simpa [Memory.write, hlt, hb] using hm
      · simp only [Memory.write, if_pos hlt, if_neg hb, Memory.wfFrom_cons]
        exact ⟨hlow, hk, hb, by omega, h.2⟩
    · subst heq
      by_cases hb : b = Memory.blank
      · simp only [Memory.write, lt_irrefl, if_false, if_true, hb]
        exact Memory.wfFrom_mono (by omega) h.2.2.2
      · simp only [Memory.write, lt_irrefl, if_false, if_true, if_neg hb, Memory.wfFrom_cons]
        exact ⟨hlow, hk, hb, h.2.2.2⟩
    · have h1 : ¬ k < k' := by omega
      have h2 : k ≠ k' := by omega
      simp only [Memory.write, if_neg h1, if_neg h2, Memory.wfFrom_cons]
      exact ⟨h.1, h.2.1, h.2.2.1, ih h.2.2.2 (by omega)⟩

/-- Every write keeps the canonical form. -/
theorem Memory.write_wf {m : Memory} (k : Word) (b : Byte) (hm : Memory.wf m = true) :
    Memory.wf (Memory.write m k.toNat b) = true :=
  Memory.write_wfFrom b hm (Nat.zero_le _) k.isLt

theorem State.writeByte_wf {s : State} (k : Word) (b : Byte) (hm : Memory.wf s.mem = true) :
    Memory.wf (s.writeByte k b).mem = true := Memory.write_wf k b hm

theorem State.writeBytes_wf {s : State} (k : Word) (bs : List Byte) (hm : Memory.wf s.mem = true) :
    Memory.wf (s.writeBytes k bs).mem = true := by
  induction bs generalizing s k with
  | nil => exact hm
  | cons b rest ih => exact ih (k + 1) (State.writeByte_wf k b hm)

theorem State.reset_wf : Memory.wf State.reset.mem = true := rfl

theorem State.resetAgain_wf (s : State) : Memory.wf s.resetAgain.mem = true := rfl

/-! ## Reading after writing -/

theorem Memory.read_write_same_from {m : Memory} {low k : Nat} (b : Byte) (hm : Memory.wfFrom low m = true) :
    Memory.read (Memory.write m k b) k = b := by
  induction m generalizing low with
  | nil =>
    by_cases hb : b = Memory.blank <;> simp [Memory.write, Memory.read, hb]
  | cons c rest ih =>
    obtain ⟨k', b'⟩ := c
    have h := Memory.wfFrom_cons.mp hm
    rcases Nat.lt_trichotomy k k' with hlt | heq | hgt
    · by_cases hb : b = Memory.blank
      · simp only [Memory.write, if_pos hlt, if_pos hb]
        rw [hb]
        exact Memory.read_below (low := k') (Memory.wfFrom_cons.mpr ⟨le_rfl, h.2⟩) hlt
      · simp [Memory.write, Memory.read, hlt, hb]
    · subst heq
      by_cases hb : b = Memory.blank
      · simp only [Memory.write, lt_irrefl, if_false, if_true, hb]
        exact Memory.read_below h.2.2.2 (Nat.lt_succ_self k)
      · simp [Memory.write, Memory.read, hb]
    · have h1 : ¬ k < k' := by omega
      have h2 : k ≠ k' := by omega
      simp only [Memory.write, if_neg h1, if_neg h2, Memory.read, if_neg (Ne.symm h2)]
      exact ih h.2.2.2

theorem Memory.read_write_other {m : Memory} {k j : Nat} (b : Byte) (h : j ≠ k) :
    Memory.read (Memory.write m k b) j = Memory.read m j := by
  induction m with
  | nil =>
    by_cases hb : b = Memory.blank <;> simp [Memory.write, Memory.read, hb, Ne.symm h]
  | cons c rest ih =>
    obtain ⟨k', b'⟩ := c
    rcases Nat.lt_trichotomy k k' with hlt | heq | hgt
    · by_cases hb : b = Memory.blank <;> simp [Memory.write, Memory.read, hlt, hb, Ne.symm h]
    · subst heq
      by_cases hb : b = Memory.blank <;> simp [Memory.write, Memory.read, hb, Ne.symm h]
    · have h1 : ¬ k < k' := by omega
      have h2 : k ≠ k' := by omega
      simp only [Memory.write, if_neg h1, if_neg h2, Memory.read, ih]

/-- A read of the address just written gives the byte written (20_memory.md R33). -/
theorem State.readByte_writeByte_same {s : State} (k : Word) (b : Byte) (hm : Memory.wf s.mem = true) :
    (s.writeByte k b).readByte k = b := Memory.read_write_same_from b hm

/-- A write leaves every other address alone (20_memory.md R33). -/
theorem State.readByte_writeByte_other {s : State} {k j : Word} (b : Byte) (h : j ≠ k) :
    (s.writeByte k b).readByte j = s.readByte j :=
  Memory.read_write_other b fun e => h (BitVec.eq_of_toNat_eq e)

end Sys2Proof.Machine
end

