-- ==== Sys2Proof/Laws/Exec.lean ====
section
/-! SUPPORT. What exec and step can do, said once. -/

namespace Sys2Proof.Machine

/-- The mnemonics with an execution rule of their own, the halt marker's included (46_step_and_lookahead.md R192). -/
abbrev Mnemonic.executes (m : Mnemonic) : Prop := m = .lda ∨ m = .adc ∨ m = .hlt

theorem Instr.eq_of_executes {i : Instr} (h : Mnemonic.executes i.mnemonic) :
    (∃ o, i = .lda o) ∨ (∃ o, i = .adc o) ∨ i = .hlt := by
  revert h
  cases i <;> simp [Mnemonic.executes, Instr.mnemonic]

/-- Every other mnemonic's meaning raises UnimplementedOpcode. -/
theorem exec_decodeOnly {i : Instr} (s : State) (h : ¬ Mnemonic.executes i.mnemonic) : exec i s = raiseForDecodeOnly i s := by
  revert h
  cases i <;> first | exact fun _ => rfl | exact fun h => absurd (by simp [Mnemonic.executes, Instr.mnemonic]) h

theorem exec_lda (o : Operand) (s : State) : exec (.lda o) s = executeOnValue (.lda o) loadAccumulator s := rfl

theorem exec_adc (o : Operand) (s : State) : exec (.adc o) s = executeOnValue (.adc o) addToAccumulator s := rfl

theorem exec_hlt (s : State) : exec .hlt s = .next (s.setResult .ok) := by
  change finishOk ((s.advance 1).rewind 1) = _
  rw [State.rewind_advance]
  rfl

/-- What an executed instruction answers, where its form exists. -/
theorem executeOnValue_of {i : Instr} {s : State} {opcode v : Byte} (effect : Byte → State → State)
    (hop : opcodeOf s.cfg i = some opcode) (hv : operandValue i.operand s = some v) :
    executeOnValue i effect s = .next ((effect v (s.advance i.length)).setResult .ok) := by
  simp [executeOnValue, hop, hv, finishOk]

/-- What exec answers where it answers a next state: one of four cases. -/
theorem exec_next_cases {i : Instr} {s t : State} (h : exec i s = .next t) :
    (∃ o v, i = .lda o ∧ operandValue o s = some v ∧ t = (loadAccumulator v (s.advance i.length)).setResult .ok) ∨
    (∃ o m, i = .adc o ∧ operandValue o s = some m ∧ t = (addToAccumulator m (s.advance i.length)).setResult .ok) ∨
    (i = .hlt ∧ t = s.setResult .ok) ∨
    (¬ Mnemonic.executes i.mnemonic ∧ ∃ opcode, opcodeOf s.cfg i = some opcode ∧
      t = (s.advance i.length).setResult (.unimplementedOpcode opcode s.pc)) := by
  by_cases hx : Mnemonic.executes i.mnemonic
  · have hv : ∀ (j : Instr) (effect : Byte → State → State), executeOnValue j effect s = .next t →
        ∃ v, operandValue j.operand s = some v ∧ t = (effect v (s.advance j.length)).setResult .ok := by
      intro j effect hj
      unfold executeOnValue at hj
      split at hj
      · rename_i v _ hval
        exact ⟨v, hval, by simpa [finishOk] using hj.symm⟩
      · exact absurd hj (by simp)
    rcases Instr.eq_of_executes hx with ⟨o, rfl⟩ | ⟨o, rfl⟩ | rfl
    · obtain ⟨v, h1, h2⟩ := hv _ _ ((exec_lda o s).symm.trans h)
      exact .inl ⟨o, v, rfl, h1, h2⟩
    · obtain ⟨v, h1, h2⟩ := hv _ _ ((exec_adc o s).symm.trans h)
      exact .inr (.inl ⟨o, v, rfl, h1, h2⟩)
    · rw [exec_hlt] at h
      exact .inr (.inr (.inl ⟨rfl, by simpa using h.symm⟩))
  · rw [exec_decodeOnly s hx, raiseForDecodeOnly] at h
    split at h
    · rename_i opcode hop
      exact .inr (.inr (.inr ⟨hx, opcode, hop, by simpa [raiseUnimplemented] using h.symm⟩))
    · exact absurd h (by simp)

/-- A well-formed instruction answers a next state. -/
theorem exec_of_wellFormed {i : Instr} {s : State} (h : wellFormed s.cfg i = true) : ∃ t, exec i s = .next t := by
  obtain ⟨opcode, hop⟩ := (wellFormed_iff_opcodeOf _ _).mp h
  by_cases hx : Mnemonic.executes i.mnemonic
  · rcases Instr.eq_of_executes hx with ⟨o, rfl⟩ | ⟨o, rfl⟩ | rfl
    · obtain ⟨v, hv⟩ := operandValue_of_hasMode s (.inl rfl) h
      exact ⟨_, (exec_lda o s).trans (executeOnValue_of _ hop hv)⟩
    · obtain ⟨v, hv⟩ := operandValue_of_hasMode s (.inr rfl) h
      exact ⟨_, (exec_adc o s).trans (executeOnValue_of _ hop hv)⟩
    · exact ⟨_, exec_hlt s⟩
  · exact ⟨_, by rw [exec_decodeOnly s hx]; exact raiseForDecodeOnly_of_opcodeOf hop⟩

/-- A step runs the instruction at `pc`. -/
theorem step_of_fetchInstr {s s' : State} {i : Instr} (h : s.fetchInstr = some (i, s')) : step s = exec i s := by
  simp [step, h]

end Sys2Proof.Machine
end

