-- ==== Sys2Proof/Laws/PerInstr.lean ====
section
/-! SUPPORT. The family EncodedLength, per instruction: a well-formed instruction has an encoding of exactly its declared length, 1 to 3 bytes
(30_encoding.md R50, R52). -/

namespace Sys2Proof.Laws

/-- A well-formed instruction encodes, to `1 + operand_byte_length` bytes, which is 1, 2 or 3. -/
def EncodedLength.Statement (i : Instr) : Prop :=
  ∀ cfg, wellFormed cfg i = true →
    ∃ bytes, encode cfg i = some bytes ∧ bytes.length = 1 + i.operandByteLength ∧ bytes.length ≤ 3

theorem Mode.byteLength_le_two (mode : Mode) : mode.byteLength ≤ 2 := by cases mode <;> decide

theorem encodedLength_of_instr (i : Instr) : EncodedLength.Statement i := by
  intro cfg h
  obtain ⟨opcode, hop⟩ := (wellFormed_iff_opcodeOf cfg i).mp h
  have hle := Mode.byteLength_le_two i.operand.mode
  exact ⟨opcode :: i.operand.bytes, by simp [encode, hop], by simp [Instr.operandByteLength, Nat.add_comm], by simp; omega⟩

theorem EncodedLength.lda (o : Operand) : EncodedLength.Statement (.lda o) := encodedLength_of_instr _
theorem EncodedLength.adc (o : Operand) : EncodedLength.Statement (.adc o) := encodedLength_of_instr _
theorem EncodedLength.ldx (o : Operand) : EncodedLength.Statement (.ldx o) := encodedLength_of_instr _
theorem EncodedLength.ldy (o : Operand) : EncodedLength.Statement (.ldy o) := encodedLength_of_instr _
theorem EncodedLength.sta (o : Operand) : EncodedLength.Statement (.sta o) := encodedLength_of_instr _
theorem EncodedLength.stx (o : Operand) : EncodedLength.Statement (.stx o) := encodedLength_of_instr _
theorem EncodedLength.sty (o : Operand) : EncodedLength.Statement (.sty o) := encodedLength_of_instr _
theorem EncodedLength.and (o : Operand) : EncodedLength.Statement (.and o) := encodedLength_of_instr _
theorem EncodedLength.ora (o : Operand) : EncodedLength.Statement (.ora o) := encodedLength_of_instr _
theorem EncodedLength.eor (o : Operand) : EncodedLength.Statement (.eor o) := encodedLength_of_instr _
theorem EncodedLength.sbc (o : Operand) : EncodedLength.Statement (.sbc o) := encodedLength_of_instr _
theorem EncodedLength.bit (o : Operand) : EncodedLength.Statement (.bit o) := encodedLength_of_instr _
theorem EncodedLength.cmp (o : Operand) : EncodedLength.Statement (.cmp o) := encodedLength_of_instr _
theorem EncodedLength.cpx (o : Operand) : EncodedLength.Statement (.cpx o) := encodedLength_of_instr _
theorem EncodedLength.cpy (o : Operand) : EncodedLength.Statement (.cpy o) := encodedLength_of_instr _
theorem EncodedLength.asl (o : Operand) : EncodedLength.Statement (.asl o) := encodedLength_of_instr _
theorem EncodedLength.lsr (o : Operand) : EncodedLength.Statement (.lsr o) := encodedLength_of_instr _
theorem EncodedLength.rol (o : Operand) : EncodedLength.Statement (.rol o) := encodedLength_of_instr _
theorem EncodedLength.ror (o : Operand) : EncodedLength.Statement (.ror o) := encodedLength_of_instr _
theorem EncodedLength.inc (o : Operand) : EncodedLength.Statement (.inc o) := encodedLength_of_instr _
theorem EncodedLength.dec (o : Operand) : EncodedLength.Statement (.dec o) := encodedLength_of_instr _
theorem EncodedLength.bcc (offset : Byte) : EncodedLength.Statement (.bcc offset) := encodedLength_of_instr _
theorem EncodedLength.bcs (offset : Byte) : EncodedLength.Statement (.bcs offset) := encodedLength_of_instr _
theorem EncodedLength.beq (offset : Byte) : EncodedLength.Statement (.beq offset) := encodedLength_of_instr _
theorem EncodedLength.bmi (offset : Byte) : EncodedLength.Statement (.bmi offset) := encodedLength_of_instr _
theorem EncodedLength.bne (offset : Byte) : EncodedLength.Statement (.bne offset) := encodedLength_of_instr _
theorem EncodedLength.bpl (offset : Byte) : EncodedLength.Statement (.bpl offset) := encodedLength_of_instr _
theorem EncodedLength.bvc (offset : Byte) : EncodedLength.Statement (.bvc offset) := encodedLength_of_instr _
theorem EncodedLength.bvs (offset : Byte) : EncodedLength.Statement (.bvs offset) := encodedLength_of_instr _
theorem EncodedLength.jmp (o : Operand) : EncodedLength.Statement (.jmp o) := encodedLength_of_instr _
theorem EncodedLength.jsr (lo hi : Byte) : EncodedLength.Statement (.jsr lo hi) := encodedLength_of_instr _
theorem EncodedLength.rts : EncodedLength.Statement .rts := encodedLength_of_instr _
theorem EncodedLength.rti : EncodedLength.Statement .rti := encodedLength_of_instr _
theorem EncodedLength.brk : EncodedLength.Statement .brk := encodedLength_of_instr _
theorem EncodedLength.clc : EncodedLength.Statement .clc := encodedLength_of_instr _
theorem EncodedLength.cld : EncodedLength.Statement .cld := encodedLength_of_instr _
theorem EncodedLength.cli : EncodedLength.Statement .cli := encodedLength_of_instr _
theorem EncodedLength.clv : EncodedLength.Statement .clv := encodedLength_of_instr _
theorem EncodedLength.sec : EncodedLength.Statement .sec := encodedLength_of_instr _
theorem EncodedLength.sed : EncodedLength.Statement .sed := encodedLength_of_instr _
theorem EncodedLength.sei : EncodedLength.Statement .sei := encodedLength_of_instr _
theorem EncodedLength.pha : EncodedLength.Statement .pha := encodedLength_of_instr _
theorem EncodedLength.php : EncodedLength.Statement .php := encodedLength_of_instr _
theorem EncodedLength.pla : EncodedLength.Statement .pla := encodedLength_of_instr _
theorem EncodedLength.plp : EncodedLength.Statement .plp := encodedLength_of_instr _
theorem EncodedLength.tax : EncodedLength.Statement .tax := encodedLength_of_instr _
theorem EncodedLength.tay : EncodedLength.Statement .tay := encodedLength_of_instr _
theorem EncodedLength.tsx : EncodedLength.Statement .tsx := encodedLength_of_instr _
theorem EncodedLength.txa : EncodedLength.Statement .txa := encodedLength_of_instr _
theorem EncodedLength.txs : EncodedLength.Statement .txs := encodedLength_of_instr _
theorem EncodedLength.tya : EncodedLength.Statement .tya := encodedLength_of_instr _
theorem EncodedLength.inx : EncodedLength.Statement .inx := encodedLength_of_instr _
theorem EncodedLength.iny : EncodedLength.Statement .iny := encodedLength_of_instr _
theorem EncodedLength.dex : EncodedLength.Statement .dex := encodedLength_of_instr _
theorem EncodedLength.dey : EncodedLength.Statement .dey := encodedLength_of_instr _
theorem EncodedLength.nop : EncodedLength.Statement .nop := encodedLength_of_instr _
theorem EncodedLength.hlt : EncodedLength.Statement .hlt := encodedLength_of_instr _
theorem EncodedLength.unk (opcode : Byte) : EncodedLength.Statement (.unk opcode) := encodedLength_of_instr _

end Sys2Proof.Laws
end

