-- ==== Sys2Proof/Tests/Slice0.lean ====
section
/-! SUPPORT. The tests: ill-formed terms that wellFormed refuses; every form of every mnemonic decoded from bytes written out of the spec's
encoding tables; the test vectors V1 to V138 of 95_test_vectors.md, by their numbers; and, for each obligation with hypotheses, a concrete state and
operands that meet them. Expected results are the spec's. -/

namespace Sys2Proof.Tests

open Sys2Proof.Machine

-- Elaborated one after the other: many small theorems at once would each hold a thread.
set_option Elab.async false

/-! ## Helpers -/

/-- Flags from a packed status byte (10_state.md R17). -/
def flagsOf (b : Byte) : Flags :=
  { n := b.getLsbD 7, v := b.getLsbD 6, bhi := b.getLsbD 5, blo := b.getLsbD 4,
    d := b.getLsbD 3, i := b.getLsbD 2, z := b.getLsbD 1, c := b.getLsbD 0 }

/-- A state with the given parameters and registers, single bytes of memory, and a program at `pc`. -/
def machine (cfg : Config) (pc : Word) (a x y p : Byte) (cells : List (Word × Byte)) (program : List Byte) : State :=
  (cells.foldl (fun (s : State) c => s.writeByte c.1 c.2)
    { State.reset with cfg := cfg, pc := pc, a := a, x := x, y := y, p := flagsOf p }).writeBytes pc program

/-- A small state at 0x0200, all registers zero, with a program. -/
def program (bytes : List Byte) : State := machine Config.default 0x0200 0 0 0 0 [] bytes

/-- The next state of an outcome, as an option: the outcome type has no decidable equality. -/
def nextOf {α : Type} (o : Host.Outcome α Fault Refusal) : Option α :=
  match o with
  | .next t => some t
  | .fault _ => none
  | .refused _ => none

theorem eq_next {α : Type} {o : Host.Outcome α Fault Refusal} {t : α} (h : nextOf o = some t) : o = .next t := by
  cases o with
  | next u => exact congrArg _ (Option.some.inj h)
  | fault r => cases h
  | refused r => cases h

theorem eq_ok {o : Except DecodeError (Instr × List Byte)} {d : Instr × List Byte} (h : o.toOption = some d) : o = .ok d := by
  cases o with
  | ok e => exact congrArg _ (Option.some.inj h)
  | error r => cases h

theorem exists_fetch {s : State} {i : Instr} (h : s.fetchInstr.map Prod.fst = some i) : ∃ s1, s.fetchInstr = some (i, s1) := by
  obtain ⟨⟨j, s1⟩, h1, rfl⟩ := Option.map_eq_some_iff.mp h
  exact ⟨s1, h1⟩

theorem agree_of_all {l : List Word} {f g : Word → Byte} (h : (l.all fun addr => f addr == g addr) = true) :
    ∀ addr ∈ l, f addr = g addr := by
  simpa using h

/-- Whether one step gives these registers, packed flags and result, and leaves memory and the parameters alone. -/
def stepsTo (s : State) (a x y p : Byte) (pc : Word) (result : StepResult) : Bool :=
  match step s with
  | .next t => t.a == a && t.x == x && t.y == y && t.p.pack == p && t.pc == pc && t.result == result && t.mem == s.mem && t.cfg == s.cfg
  | .fault _ => false
  | .refused _ => false

/-- Whether a peek answers this descriptor and leaves the state, a decode leaves this `pc`, and the reads are these addresses. -/
def peeksAs (s : State) (d : Descriptor) (pcAfter : Word) (reads : List Word) : Bool :=
  peek s == some (d, s) && (decodeHere s).map (fun r => r.2.pc) == some pcAfter &&
    (s.fetchInstr.map fun r => decodeReads r.1 s) == some reads

/-- As `stepsTo`, with the addresses the step reads. -/
def stepsAndReads (s : State) (a x y p : Byte) (pc : Word) (result : StepResult) (reads : List Word) : Bool :=
  stepsTo s a x y p pc result && (s.fetchInstr.map fun r => stepReads r.1 s) == some reads

/-- Whether each byte sequence decodes to its instruction with the two marker bytes after it left over, and encodes back. -/
def decodesAs (samples : List (List Byte × Instr)) : Bool :=
  samples.all fun c =>
    (match decode Config.default (c.1 ++ [0xEA, 0x02]) with
      | .ok (i, rest) => i == c.2 && rest == [0xEA, 0x02]
      | .error _ => false) && encode Config.default c.2 == some c.1

/-! ## Ill-formed terms -/

theorem test_wellFormed_refuses_lda_implied : wellFormed Config.default (.lda .implied) = false := by decide
theorem test_wellFormed_refuses_lda_accumulator : wellFormed Config.default (.lda .accumulator) = false := by decide
theorem test_wellFormed_refuses_adc_relative : wellFormed Config.default (.adc (.relative 0)) = false := by decide
theorem test_wellFormed_refuses_sta_immediate : wellFormed Config.default (.sta (.immediate 0x44)) = false := by decide
theorem test_wellFormed_refuses_stx_zeroPageX : wellFormed Config.default (.stx (.zeroPageX 0x44)) = false := by decide
theorem test_wellFormed_refuses_ldx_absoluteX : wellFormed Config.default (.ldx (.absoluteX 0 0)) = false := by decide
theorem test_wellFormed_refuses_ldy_zeroPageY : wellFormed Config.default (.ldy (.zeroPageY 0)) = false := by decide
theorem test_wellFormed_refuses_bit_immediate : wellFormed Config.default (.bit (.immediate 0)) = false := by decide
theorem test_wellFormed_refuses_cpx_zeroPageX : wellFormed Config.default (.cpx (.zeroPageX 0)) = false := by decide
theorem test_wellFormed_refuses_asl_immediate : wellFormed Config.default (.asl (.immediate 0)) = false := by decide
theorem test_wellFormed_refuses_inc_accumulator : wellFormed Config.default (.inc .accumulator) = false := by decide
theorem test_wellFormed_refuses_jmp_absoluteX : wellFormed Config.default (.jmp (.absoluteX 0 0)) = false := by decide
theorem test_wellFormed_refuses_unk_legal_opcode : wellFormed Config.default (.unk 0xA9) = false := by decide
theorem test_wellFormed_refuses_unk_halt_byte : wellFormed Config.default (.unk 0x02) = false := by decide
theorem test_wellFormed_refuses_hlt_at_legal_opcode :
    wellFormed { Config.default with haltOpcode := 0xEA } .hlt = false := by decide
theorem test_config_refuses_legal_opcode : Config.legal { Config.default with haltOpcode := 0x00 } = false := by decide
theorem test_config_allows_default : Config.legal Config.default = true := by decide
theorem test_memory_wf_refuses_blank_entry : Memory.wf [(0x0010, 0x00)] = false := by decide
theorem test_memory_wf_refuses_unsorted : Memory.wf [(0x0011, 0x01), (0x0010, 0x01)] = false := by decide
theorem test_memory_wf_refuses_repeat : Memory.wf [(0x0010, 0x01), (0x0010, 0x02)] = false := by decide
theorem test_memory_wf_refuses_outside : Memory.wf [(65536, 0x01)] = false := by decide

/-! ## Decoding, every form of every mnemonic (30_encoding.md R55; the sample columns of 41, 42, 44 and 45) -/

theorem test_decode_lda : decodesAs [
    ([0xA9, 0x44], .lda (.immediate 0x44)), ([0xA5, 0x44], .lda (.zeroPage 0x44)),
    ([0xB5, 0x44], .lda (.zeroPageX 0x44)), ([0xAD, 0x34, 0x12], .lda (.absolute 0x34 0x12)),
    ([0xBD, 0x34, 0x12], .lda (.absoluteX 0x34 0x12)), ([0xB9, 0x34, 0x12], .lda (.absoluteY 0x34 0x12)),
    ([0xA1, 0x44], .lda (.indexedIndirect 0x44)), ([0xB1, 0x44], .lda (.indirectIndexed 0x44))] = true := by decide +kernel
theorem test_decode_adc : decodesAs [
    ([0x69, 0x44], .adc (.immediate 0x44)), ([0x65, 0x44], .adc (.zeroPage 0x44)),
    ([0x75, 0x44], .adc (.zeroPageX 0x44)), ([0x6D, 0x34, 0x12], .adc (.absolute 0x34 0x12)),
    ([0x7D, 0x34, 0x12], .adc (.absoluteX 0x34 0x12)), ([0x79, 0x34, 0x12], .adc (.absoluteY 0x34 0x12)),
    ([0x61, 0x44], .adc (.indexedIndirect 0x44)), ([0x71, 0x44], .adc (.indirectIndexed 0x44))] = true := by decide +kernel
theorem test_decode_ldx : decodesAs [
    ([0xA2, 0x44], .ldx (.immediate 0x44)), ([0xA6, 0x44], .ldx (.zeroPage 0x44)),
    ([0xAE, 0x34, 0x12], .ldx (.absolute 0x34 0x12)), ([0xB6, 0x44], .ldx (.zeroPageY 0x44)),
    ([0xBE, 0x34, 0x12], .ldx (.absoluteY 0x34 0x12))] = true := by decide +kernel
theorem test_decode_ldy : decodesAs [
    ([0xA0, 0x44], .ldy (.immediate 0x44)), ([0xA4, 0x44], .ldy (.zeroPage 0x44)),
    ([0xAC, 0x34, 0x12], .ldy (.absolute 0x34 0x12)), ([0xB4, 0x44], .ldy (.zeroPageX 0x44)),
    ([0xBC, 0x34, 0x12], .ldy (.absoluteX 0x34 0x12))] = true := by decide +kernel
theorem test_decode_sta : decodesAs [
    ([0x81, 0x44], .sta (.indexedIndirect 0x44)), ([0x85, 0x44], .sta (.zeroPage 0x44)),
    ([0x8D, 0x34, 0x12], .sta (.absolute 0x34 0x12)), ([0x91, 0x44], .sta (.indirectIndexed 0x44)),
    ([0x95, 0x44], .sta (.zeroPageX 0x44)), ([0x99, 0x34, 0x12], .sta (.absoluteY 0x34 0x12)),
    ([0x9D, 0x34, 0x12], .sta (.absoluteX 0x34 0x12))] = true := by decide +kernel
theorem test_decode_stx : decodesAs [
    ([0x86, 0x44], .stx (.zeroPage 0x44)), ([0x8E, 0x34, 0x12], .stx (.absolute 0x34 0x12)),
    ([0x96, 0x44], .stx (.zeroPageY 0x44))] = true := by decide +kernel
theorem test_decode_sty : decodesAs [
    ([0x84, 0x44], .sty (.zeroPage 0x44)), ([0x8C, 0x34, 0x12], .sty (.absolute 0x34 0x12)),
    ([0x94, 0x44], .sty (.zeroPageX 0x44))] = true := by decide +kernel
theorem test_decode_and : decodesAs [
    ([0x21, 0x44], .and (.indexedIndirect 0x44)), ([0x25, 0x44], .and (.zeroPage 0x44)),
    ([0x29, 0x44], .and (.immediate 0x44)), ([0x2D, 0x34, 0x12], .and (.absolute 0x34 0x12)),
    ([0x31, 0x44], .and (.indirectIndexed 0x44)), ([0x35, 0x44], .and (.zeroPageX 0x44)),
    ([0x39, 0x34, 0x12], .and (.absoluteY 0x34 0x12)), ([0x3D, 0x34, 0x12], .and (.absoluteX 0x34 0x12))] = true := by decide +kernel
theorem test_decode_ora : decodesAs [
    ([0x01, 0x44], .ora (.indexedIndirect 0x44)), ([0x05, 0x44], .ora (.zeroPage 0x44)),
    ([0x09, 0x44], .ora (.immediate 0x44)), ([0x0D, 0x34, 0x12], .ora (.absolute 0x34 0x12)),
    ([0x11, 0x44], .ora (.indirectIndexed 0x44)), ([0x15, 0x44], .ora (.zeroPageX 0x44)),
    ([0x19, 0x34, 0x12], .ora (.absoluteY 0x34 0x12)), ([0x1D, 0x34, 0x12], .ora (.absoluteX 0x34 0x12))] = true := by decide +kernel
theorem test_decode_eor : decodesAs [
    ([0x41, 0x44], .eor (.indexedIndirect 0x44)), ([0x45, 0x44], .eor (.zeroPage 0x44)),
    ([0x49, 0x44], .eor (.immediate 0x44)), ([0x4D, 0x34, 0x12], .eor (.absolute 0x34 0x12)),
    ([0x51, 0x44], .eor (.indirectIndexed 0x44)), ([0x55, 0x44], .eor (.zeroPageX 0x44)),
    ([0x59, 0x34, 0x12], .eor (.absoluteY 0x34 0x12)), ([0x5D, 0x34, 0x12], .eor (.absoluteX 0x34 0x12))] = true := by decide +kernel
theorem test_decode_sbc : decodesAs [
    ([0xE1, 0x44], .sbc (.indexedIndirect 0x44)), ([0xE5, 0x44], .sbc (.zeroPage 0x44)),
    ([0xE9, 0x44], .sbc (.immediate 0x44)), ([0xED, 0x34, 0x12], .sbc (.absolute 0x34 0x12)),
    ([0xF1, 0x44], .sbc (.indirectIndexed 0x44)), ([0xF5, 0x44], .sbc (.zeroPageX 0x44)),
    ([0xF9, 0x34, 0x12], .sbc (.absoluteY 0x34 0x12)), ([0xFD, 0x34, 0x12], .sbc (.absoluteX 0x34 0x12))] = true := by decide +kernel
theorem test_decode_bit : decodesAs [([0x24, 0x44], .bit (.zeroPage 0x44)), ([0x2C, 0x34, 0x12], .bit (.absolute 0x34 0x12))] = true := by decide +kernel
theorem test_decode_cmp : decodesAs [
    ([0xC1, 0x44], .cmp (.indexedIndirect 0x44)), ([0xC5, 0x44], .cmp (.zeroPage 0x44)),
    ([0xC9, 0x44], .cmp (.immediate 0x44)), ([0xCD, 0x34, 0x12], .cmp (.absolute 0x34 0x12)),
    ([0xD1, 0x44], .cmp (.indirectIndexed 0x44)), ([0xD5, 0x44], .cmp (.zeroPageX 0x44)),
    ([0xD9, 0x34, 0x12], .cmp (.absoluteY 0x34 0x12)), ([0xDD, 0x34, 0x12], .cmp (.absoluteX 0x34 0x12))] = true := by decide +kernel
theorem test_decode_cpx : decodesAs [
    ([0xE0, 0x44], .cpx (.immediate 0x44)), ([0xE4, 0x44], .cpx (.zeroPage 0x44)),
    ([0xEC, 0x34, 0x12], .cpx (.absolute 0x34 0x12))] = true := by decide +kernel
theorem test_decode_cpy : decodesAs [
    ([0xC0, 0x44], .cpy (.immediate 0x44)), ([0xC4, 0x44], .cpy (.zeroPage 0x44)),
    ([0xCC, 0x34, 0x12], .cpy (.absolute 0x34 0x12))] = true := by decide +kernel
theorem test_decode_asl : decodesAs [
    ([0x06, 0x44], .asl (.zeroPage 0x44)), ([0x0A], .asl .accumulator),
    ([0x0E, 0x34, 0x12], .asl (.absolute 0x34 0x12)), ([0x16, 0x44], .asl (.zeroPageX 0x44)),
    ([0x1E, 0x34, 0x12], .asl (.absoluteX 0x34 0x12))] = true := by decide +kernel
theorem test_decode_lsr : decodesAs [
    ([0x46, 0x44], .lsr (.zeroPage 0x44)), ([0x4A], .lsr .accumulator),
    ([0x4E, 0x34, 0x12], .lsr (.absolute 0x34 0x12)), ([0x56, 0x44], .lsr (.zeroPageX 0x44)),
    ([0x5E, 0x34, 0x12], .lsr (.absoluteX 0x34 0x12))] = true := by decide +kernel
theorem test_decode_rol : decodesAs [
    ([0x26, 0x44], .rol (.zeroPage 0x44)), ([0x2A], .rol .accumulator),
    ([0x2E, 0x34, 0x12], .rol (.absolute 0x34 0x12)), ([0x36, 0x44], .rol (.zeroPageX 0x44)),
    ([0x3E, 0x34, 0x12], .rol (.absoluteX 0x34 0x12))] = true := by decide +kernel
theorem test_decode_ror : decodesAs [
    ([0x66, 0x44], .ror (.zeroPage 0x44)), ([0x6A], .ror .accumulator),
    ([0x6E, 0x34, 0x12], .ror (.absolute 0x34 0x12)), ([0x76, 0x44], .ror (.zeroPageX 0x44)),
    ([0x7E, 0x34, 0x12], .ror (.absoluteX 0x34 0x12))] = true := by decide +kernel
theorem test_decode_inc : decodesAs [
    ([0xE6, 0x44], .inc (.zeroPage 0x44)), ([0xEE, 0x34, 0x12], .inc (.absolute 0x34 0x12)),
    ([0xF6, 0x44], .inc (.zeroPageX 0x44)), ([0xFE, 0x34, 0x12], .inc (.absoluteX 0x34 0x12))] = true := by decide +kernel
theorem test_decode_dec : decodesAs [
    ([0xC6, 0x44], .dec (.zeroPage 0x44)), ([0xCE, 0x34, 0x12], .dec (.absolute 0x34 0x12)),
    ([0xD6, 0x44], .dec (.zeroPageX 0x44)), ([0xDE, 0x34, 0x12], .dec (.absoluteX 0x34 0x12))] = true := by decide +kernel
theorem test_decode_bcc : decodesAs [([0x90, 0x44], .bcc 0x44)] = true := by decide +kernel
theorem test_decode_bcs : decodesAs [([0xB0, 0x44], .bcs 0x44)] = true := by decide +kernel
theorem test_decode_beq : decodesAs [([0xF0, 0x44], .beq 0x44)] = true := by decide +kernel
theorem test_decode_bmi : decodesAs [([0x30, 0x44], .bmi 0x44)] = true := by decide +kernel
theorem test_decode_bne : decodesAs [([0xD0, 0x44], .bne 0x44)] = true := by decide +kernel
theorem test_decode_bpl : decodesAs [([0x10, 0x44], .bpl 0x44)] = true := by decide +kernel
theorem test_decode_bvc : decodesAs [([0x50, 0x44], .bvc 0x44)] = true := by decide +kernel
theorem test_decode_bvs : decodesAs [([0x70, 0x44], .bvs 0x44)] = true := by decide +kernel
theorem test_decode_jmp : decodesAs [([0x4C, 0x34, 0x12], .jmp (.absolute 0x34 0x12)), ([0x6C, 0x34, 0x12], .jmp (.indirect 0x34 0x12))] = true := by decide +kernel
theorem test_decode_jsr : decodesAs [([0x20, 0x34, 0x12], .jsr 0x34 0x12)] = true := by decide +kernel
theorem test_decode_rts : decodesAs [([0x60], .rts)] = true := by decide +kernel
theorem test_decode_rti : decodesAs [([0x40], .rti)] = true := by decide +kernel
theorem test_decode_brk : decodesAs [([0x00], .brk)] = true := by decide +kernel
theorem test_decode_clc : decodesAs [([0x18], .clc)] = true := by decide +kernel
theorem test_decode_cld : decodesAs [([0xD8], .cld)] = true := by decide +kernel
theorem test_decode_cli : decodesAs [([0x58], .cli)] = true := by decide +kernel
theorem test_decode_clv : decodesAs [([0xB8], .clv)] = true := by decide +kernel
theorem test_decode_sec : decodesAs [([0x38], .sec)] = true := by decide +kernel
theorem test_decode_sed : decodesAs [([0xF8], .sed)] = true := by decide +kernel
theorem test_decode_sei : decodesAs [([0x78], .sei)] = true := by decide +kernel
theorem test_decode_pha : decodesAs [([0x48], .pha)] = true := by decide +kernel
theorem test_decode_php : decodesAs [([0x08], .php)] = true := by decide +kernel
theorem test_decode_pla : decodesAs [([0x68], .pla)] = true := by decide +kernel
theorem test_decode_plp : decodesAs [([0x28], .plp)] = true := by decide +kernel
theorem test_decode_tax : decodesAs [([0xAA], .tax)] = true := by decide +kernel
theorem test_decode_tay : decodesAs [([0xA8], .tay)] = true := by decide +kernel
theorem test_decode_tsx : decodesAs [([0xBA], .tsx)] = true := by decide +kernel
theorem test_decode_txa : decodesAs [([0x8A], .txa)] = true := by decide +kernel
theorem test_decode_txs : decodesAs [([0x9A], .txs)] = true := by decide +kernel
theorem test_decode_tya : decodesAs [([0x98], .tya)] = true := by decide +kernel
theorem test_decode_inx : decodesAs [([0xE8], .inx)] = true := by decide +kernel
theorem test_decode_iny : decodesAs [([0xC8], .iny)] = true := by decide +kernel
theorem test_decode_dex : decodesAs [([0xCA], .dex)] = true := by decide +kernel
theorem test_decode_dey : decodesAs [([0x88], .dey)] = true := by decide +kernel
theorem test_decode_nop : decodesAs [([0xEA], .nop)] = true := by decide +kernel
theorem test_decode_hlt : decodesAs [([0x02], .hlt)] = true := by decide +kernel
theorem test_decode_unk : decodesAs [([0x03], .unk 0x03), ([0x44], .unk 0x44), ([0x80], .unk 0x80), ([0xFF], .unk 0xFF)] = true := by decide +kernel
theorem test_decode_truncated : decode Config.default [0xAD, 0x34] matches .error .truncated := by decide +kernel
theorem test_decodeTableWord_absolute : decodeTableWord 24 0x1234AD = some (.lda (.absolute 0x34 0x12)) := by decide +kernel
theorem test_decodeTableWord_operand_zero : decodeTableWord 8 0x6C = some (.jmp (.indirect 0x00 0x00)) := by decide +kernel

/-! ## Peeks: V1 to V40 -/

/-- 95_test_vectors.md V1 to V3. -/
theorem test_peek_immediate_zeroPage :
    peeksAs (machine Config.default 0x0200 0 0x00 0x00 0 [] [0xA9, 0x80])
      ⟨.lda, 0xA9, 0x0080, 1, .immediate⟩ 0x0202 [0x0200, 0x0201] = true ∧
    peeksAs (machine Config.default 0xFFFF 0 0x00 0x00 0 [(0x0000, 0x7F)] [0xA9])
      ⟨.lda, 0xA9, 0x007F, 1, .immediate⟩ 0x0001 [0xFFFF, 0x0000] = true ∧
    peeksAs (machine Config.default 0x0200 0 0x00 0x00 0 [] [0xA5, 0x44])
      ⟨.lda, 0xA5, 0x0044, 1, .zeroPage⟩ 0x0202 [0x0200, 0x0201] = true := by
  decide +kernel

/-- 95_test_vectors.md V4 to V8. -/
theorem test_peek_zeroPageIndexed :
    peeksAs (machine Config.default 0x0200 0 0x04 0x00 0 [] [0xB5, 0x44])
      ⟨.lda, 0xB5, 0x0048, 1, .zeroPageX⟩ 0x0202 [0x0200, 0x0201] = true ∧
    peeksAs (machine Config.default 0x0200 0 0x20 0x00 0 [] [0xB5, 0xF0])
      ⟨.lda, 0xB5, 0x0010, 1, .zeroPageX⟩ 0x0202 [0x0200, 0x0201] = true ∧
    peeksAs (machine Config.default 0x0200 0 0xFF 0x00 0 [] [0xB5, 0xFF])
      ⟨.lda, 0xB5, 0x00FE, 1, .zeroPageX⟩ 0x0202 [0x0200, 0x0201] = true ∧
    peeksAs (machine Config.default 0x0200 0 0x00 0x10 0 [] [0xB6, 0x44])
      ⟨.ldx, 0xB6, 0x0054, 1, .zeroPageY⟩ 0x0202 [0x0200, 0x0201] = true ∧
    peeksAs (machine Config.default 0x0200 0 0x00 0x20 0 [] [0xB6, 0xF0])
      ⟨.ldx, 0xB6, 0x0010, 1, .zeroPageY⟩ 0x0202 [0x0200, 0x0201] = true := by
  decide +kernel

/-- 95_test_vectors.md V9 to V15. -/
theorem test_peek_absolute :
    peeksAs (machine Config.default 0x0200 0 0x00 0x00 0 [] [0xAD, 0x34, 0x12])
      ⟨.lda, 0xAD, 0x1234, 2, .absolute⟩ 0x0203 [0x0200, 0x0201, 0x0202] = true ∧
    peeksAs (machine Config.default 0xFFFE 0 0x00 0x00 0 [(0x0000, 0x12)] [0xAD, 0x34])
      ⟨.lda, 0xAD, 0x1234, 2, .absolute⟩ 0x0001 [0xFFFE, 0xFFFF, 0x0000] = true ∧
    peeksAs (machine Config.default 0x0200 0 0x04 0x00 0 [] [0xBD, 0x34, 0x12])
      ⟨.lda, 0xBD, 0x1238, 2, .absoluteX⟩ 0x0203 [0x0200, 0x0201, 0x0202] = true ∧
    peeksAs (machine Config.default 0x0200 0 0x01 0x00 0 [] [0xBD, 0xFF, 0x12])
      ⟨.lda, 0xBD, 0x1300, 2, .absoluteX⟩ 0x0203 [0x0200, 0x0201, 0x0202] = true ∧
    peeksAs (machine Config.default 0x0200 0 0x02 0x00 0 [] [0xBD, 0xFF, 0xFF])
      ⟨.lda, 0xBD, 0x0001, 2, .absoluteX⟩ 0x0203 [0x0200, 0x0201, 0x0202] = true ∧
    peeksAs (machine Config.default 0x0200 0 0x00 0x10 0 [] [0xB9, 0x34, 0x12])
      ⟨.lda, 0xB9, 0x1244, 2, .absoluteY⟩ 0x0203 [0x0200, 0x0201, 0x0202] = true ∧
    peeksAs (machine Config.default 0x0200 0 0x00 0x20 0 [] [0xB9, 0xF0, 0xFF])
      ⟨.lda, 0xB9, 0x0010, 2, .absoluteY⟩ 0x0203 [0x0200, 0x0201, 0x0202] = true := by
  decide +kernel

/-- 95_test_vectors.md V16 to V22. -/
theorem test_peek_indirect :
    peeksAs (machine Config.default 0x0200 0 0x00 0x00 0 [(0x0300, 0x78), (0x0301, 0x56)] [0x6C, 0x00, 0x03])
      ⟨.jmp, 0x6C, 0x5678, 2, .indirect⟩ 0x0203 [0x0200, 0x0201, 0x0202, 0x0300, 0x0301] = true ∧
    peeksAs (machine Config.default 0x0200 0 0x02 0x00 0 [(0x0300, 0x78), (0x0301, 0x56), (0x0302, 0xCD), (0x0303, 0xAB)] [0x6C, 0x00, 0x03])
      ⟨.jmp, 0x6C, 0xABCD, 2, .indirect⟩ 0x0203 [0x0200, 0x0201, 0x0202, 0x0302, 0x0303] = true ∧
    peeksAs (machine { Config.default with indirectAddsX := false } 0x0200 0 0x02 0x00 0 [(0x0300, 0x78), (0x0301, 0x56), (0x0302, 0xCD), (0x0303, 0xAB)] [0x6C, 0x00, 0x03])
      ⟨.jmp, 0x6C, 0x5678, 2, .indirect⟩ 0x0203 [0x0200, 0x0201, 0x0202, 0x0300, 0x0301] = true ∧
    peeksAs (machine Config.default 0x0200 0 0x00 0x00 0 [(0x1200, 0x99), (0x12FF, 0x34), (0x1300, 0x12)] [0x6C, 0xFF, 0x12])
      ⟨.jmp, 0x6C, 0x1234, 2, .indirect⟩ 0x0203 [0x0200, 0x0201, 0x0202, 0x12FF, 0x1300] = true ∧
    peeksAs (machine { Config.default with indirectPageWrapBug := true } 0x0200 0 0x00 0x00 0 [(0x1200, 0x99), (0x12FF, 0x34), (0x1300, 0x12)] [0x6C, 0xFF, 0x12])
      ⟨.jmp, 0x6C, 0x9934, 2, .indirect⟩ 0x0203 [0x0200, 0x0201, 0x0202, 0x12FF, 0x1200] = true ∧
    peeksAs (machine Config.default 0x0200 0 0x00 0x00 0 [(0x0000, 0x12), (0xFF00, 0x99), (0xFFFF, 0x34)] [0x6C, 0xFF, 0xFF])
      ⟨.jmp, 0x6C, 0x1234, 2, .indirect⟩ 0x0203 [0x0200, 0x0201, 0x0202, 0xFFFF, 0x0000] = true ∧
    peeksAs (machine { Config.default with indirectPageWrapBug := true } 0x0200 0 0x00 0x00 0 [(0x0000, 0x12), (0xFF00, 0x99), (0xFFFF, 0x34)] [0x6C, 0xFF, 0xFF])
      ⟨.jmp, 0x6C, 0x9934, 2, .indirect⟩ 0x0203 [0x0200, 0x0201, 0x0202, 0xFFFF, 0xFF00] = true := by
  decide +kernel

/-- 95_test_vectors.md V23 to V26. -/
theorem test_peek_indexedIndirect :
    peeksAs (machine Config.default 0x0200 0 0x04 0x00 0 [(0x0048, 0xCD), (0x0049, 0xAB)] [0xA1, 0x44])
      ⟨.lda, 0xA1, 0xABCD, 1, .indexedIndirect⟩ 0x0202 [0x0200, 0x0201, 0x0048, 0x0049] = true ∧
    peeksAs (machine Config.default 0x0200 0 0x20 0x00 0 [(0x0010, 0x00), (0x0011, 0x30)] [0xA1, 0xF0])
      ⟨.lda, 0xA1, 0x3000, 1, .indexedIndirect⟩ 0x0202 [0x0200, 0x0201, 0x0010, 0x0011] = true ∧
    peeksAs (machine Config.default 0x0200 0 0x04 0x00 0 [(0x0000, 0x12), (0x00FF, 0x34), (0x0100, 0x99)] [0xA1, 0xFB])
      ⟨.lda, 0xA1, 0x1234, 1, .indexedIndirect⟩ 0x0202 [0x0200, 0x0201, 0x00FF, 0x0000] = true ∧
    peeksAs (machine { Config.default with zpPointerWrap := false } 0x0200 0 0x04 0x00 0 [(0x0000, 0x12), (0x00FF, 0x34), (0x0100, 0x99)] [0xA1, 0xFB])
      ⟨.lda, 0xA1, 0x9934, 1, .indexedIndirect⟩ 0x0202 [0x0200, 0x0201, 0x00FF, 0x0100] = true := by
  decide +kernel

/-- 95_test_vectors.md V27 to V31. -/
theorem test_peek_indirectIndexed :
    peeksAs (machine Config.default 0x0200 0 0x00 0x10 0 [(0x0044, 0x00), (0x0045, 0x30)] [0xB1, 0x44])
      ⟨.lda, 0xB1, 0x3010, 1, .indirectIndexed⟩ 0x0202 [0x0200, 0x0201, 0x0044, 0x0045] = true ∧
    peeksAs (machine Config.default 0x0200 0 0x00 0xFF 0 [(0x0044, 0x80), (0x0045, 0x30)] [0xB1, 0x44])
      ⟨.lda, 0xB1, 0x317F, 1, .indirectIndexed⟩ 0x0202 [0x0200, 0x0201, 0x0044, 0x0045] = true ∧
    peeksAs (machine Config.default 0x0200 0 0x00 0x02 0 [(0x0044, 0xFF), (0x0045, 0xFF)] [0xB1, 0x44])
      ⟨.lda, 0xB1, 0x0001, 1, .indirectIndexed⟩ 0x0202 [0x0200, 0x0201, 0x0044, 0x0045] = true ∧
    peeksAs (machine Config.default 0x0200 0 0x00 0x01 0 [(0x0000, 0x12), (0x00FF, 0x34), (0x0100, 0x99)] [0xB1, 0xFF])
      ⟨.lda, 0xB1, 0x1235, 1, .indirectIndexed⟩ 0x0202 [0x0200, 0x0201, 0x00FF, 0x0000] = true ∧
    peeksAs (machine { Config.default with zpPointerWrap := false } 0x0200 0 0x00 0x01 0 [(0x0000, 0x12), (0x00FF, 0x34), (0x0100, 0x99)] [0xB1, 0xFF])
      ⟨.lda, 0xB1, 0x9935, 1, .indirectIndexed⟩ 0x0202 [0x0200, 0x0201, 0x00FF, 0x0100] = true := by
  decide +kernel

/-- 95_test_vectors.md V32 to V35. -/
theorem test_peek_no_operand_relative :
    peeksAs (machine Config.default 0x0200 0 0x00 0x00 0 [] [0xEA])
      ⟨.nop, 0xEA, 0x0000, 0, .implied⟩ 0x0201 [0x0200] = true ∧
    peeksAs (machine Config.default 0x0200 0 0x00 0x00 0 [] [0x0A])
      ⟨.asl, 0x0A, 0x0000, 0, .accumulator⟩ 0x0201 [0x0200] = true ∧
    peeksAs (machine Config.default 0x0200 0 0x00 0x00 0 [] [0xD0, 0xFE])
      ⟨.bne, 0xD0, 0x00FE, 1, .relative⟩ 0x0202 [0x0200, 0x0201] = true ∧
    peeksAs (machine Config.default 0x0200 0 0x00 0x00 0 [] [0xD0, 0x7F])
      ⟨.bne, 0xD0, 0x007F, 1, .relative⟩ 0x0202 [0x0200, 0x0201] = true := by
  decide +kernel

/-- 95_test_vectors.md V36 to V40. -/
theorem test_peek_hlt_unk :
    peeksAs (machine Config.default 0x0200 0 0x00 0x00 0 [] [0x02])
      ⟨.hlt, 0x02, 0x0000, 0, .implied⟩ 0x0201 [0x0200] = true ∧
    peeksAs (machine Config.default 0x0200 0 0x00 0x00 0 [] [0xFF, 0xA9, 0x80])
      ⟨.unk, 0xFF, 0x0000, 0, .implied⟩ 0x0201 [0x0200] = true ∧
    peeksAs (machine Config.default 0x0200 0 0x00 0x00 0 [] [0x03])
      ⟨.unk, 0x03, 0x0000, 0, .implied⟩ 0x0201 [0x0200] = true ∧
    peeksAs (machine { Config.default with haltOpcode := 0xFF } 0x0200 0 0x00 0x00 0 [] [0x02])
      ⟨.unk, 0x02, 0x0000, 0, .implied⟩ 0x0201 [0x0200] = true ∧
    peeksAs (machine { Config.default with haltOpcode := 0xFF } 0x0200 0 0x00 0x00 0 [] [0xFF])
      ⟨.hlt, 0xFF, 0x0000, 0, .implied⟩ 0x0201 [0x0200] = true := by
  decide +kernel

/-! ## LDA and ADC: V41 to V79 -/

/-- 95_test_vectors.md V41 to V45. -/
theorem test_lda_immediate :
    stepsAndReads (machine Config.default 0x0200 0x55 0x00 0x00 0x80 [] [0xA9, 0x00])
      0x00 0x00 0x00 0x02 0x0202 .ok [0x0200, 0x0201] = true ∧
    stepsAndReads (machine Config.default 0x0200 0x00 0x00 0x00 0x02 [] [0xA9, 0x80])
      0x80 0x00 0x00 0x80 0x0202 .ok [0x0200, 0x0201] = true ∧
    stepsAndReads (machine Config.default 0x0200 0x00 0x00 0x00 0x41 [] [0xA9, 0x7F])
      0x7F 0x00 0x00 0x41 0x0202 .ok [0x0200, 0x0201] = true ∧
    stepsAndReads (machine Config.default 0x0200 0x00 0x00 0x00 0x41 [] [0xA9, 0xFF])
      0xFF 0x00 0x00 0xC1 0x0202 .ok [0x0200, 0x0201] = true ∧
    stepsAndReads (machine Config.default 0x0200 0x00 0x00 0x00 0x3C [] [0xA9, 0x01])
      0x01 0x00 0x00 0x3C 0x0202 .ok [0x0200, 0x0201] = true := by
  decide +kernel

/-- 95_test_vectors.md V46 to V56; V54 has ZP_POINTER_WRAP = false. -/
theorem test_lda_memory_modes :
    stepsAndReads (machine Config.default 0x0200 0x00 0x00 0x00 0x41 [(0x0044, 0x99)] [0xA5, 0x44])
      0x99 0x00 0x00 0xC1 0x0202 .ok [0x0200, 0x0201, 0x0044] = true ∧
    stepsAndReads (machine Config.default 0x0200 0x00 0x20 0x00 0x41 [(0x0010, 0x11), (0x0110, 0xEE)] [0xB5, 0xF0])
      0x11 0x20 0x00 0x41 0x0202 .ok [0x0200, 0x0201, 0x0010] = true ∧
    stepsAndReads (machine Config.default 0x0200 0x77 0x00 0x00 0x41 [(0x1234, 0x00)] [0xAD, 0x34, 0x12])
      0x00 0x00 0x00 0x43 0x0203 .ok [0x0200, 0x0201, 0x0202, 0x1234] = true ∧
    stepsAndReads (machine Config.default 0x0200 0x00 0x01 0x00 0x00 [(0x1300, 0x80)] [0xBD, 0xFF, 0x12])
      0x80 0x01 0x00 0x80 0x0203 .ok [0x0200, 0x0201, 0x0202, 0x1300] = true ∧
    stepsAndReads (machine Config.default 0x0200 0x00 0x00 0x20 0x00 [(0x0010, 0x42)] [0xB9, 0xF0, 0xFF])
      0x42 0x00 0x20 0x00 0x0203 .ok [0x0200, 0x0201, 0x0202, 0x0010] = true ∧
    stepsAndReads (machine Config.default 0x0200 0x00 0x04 0x00 0x00 [(0x0048, 0xCD), (0x0049, 0xAB), (0xABCD, 0x5A)] [0xA1, 0x44])
      0x5A 0x04 0x00 0x00 0x0202 .ok [0x0200, 0x0201, 0x0048, 0x0049, 0xABCD] = true ∧
    stepsAndReads (machine Config.default 0x0200 0x00 0x00 0x10 0x00 [(0x0044, 0x00), (0x0045, 0x30), (0x3010, 0xC3)] [0xB1, 0x44])
      0xC3 0x00 0x10 0x80 0x0202 .ok [0x0200, 0x0201, 0x0044, 0x0045, 0x3010] = true ∧
    stepsAndReads (machine Config.default 0x0200 0x00 0x04 0x00 0x00 [(0x0000, 0x12), (0x00FF, 0x34), (0x0100, 0x99), (0x1234, 0x01), (0x9934, 0x02)] [0xA1, 0xFB])
      0x01 0x04 0x00 0x00 0x0202 .ok [0x0200, 0x0201, 0x00FF, 0x0000, 0x1234] = true ∧
    stepsAndReads (machine { Config.default with zpPointerWrap := false } 0x0200 0x00 0x04 0x00 0x00 [(0x0000, 0x12), (0x00FF, 0x34), (0x0100, 0x99), (0x1234, 0x01), (0x9934, 0x02)] [0xA1, 0xFB])
      0x02 0x04 0x00 0x00 0x0202 .ok [0x0200, 0x0201, 0x00FF, 0x0100, 0x9934] = true ∧
    stepsAndReads (machine Config.default 0x0200 0x00 0x00 0x00 0x00 [] [0xAD, 0x00, 0x02])
      0xAD 0x00 0x00 0x80 0x0203 .ok [0x0200, 0x0201, 0x0202, 0x0200] = true ∧
    stepsAndReads (machine Config.default 0xFFFF 0x00 0x00 0x00 0x00 [(0x0000, 0x33)] [0xA9])
      0x33 0x00 0x00 0x00 0x0001 .ok [0xFFFF, 0x0000] = true := by
  decide +kernel

/-- 95_test_vectors.md V57 to V71. -/
theorem test_adc_immediate :
    stepsTo (machine Config.default 0x0200 0x00 0x00 0x00 0x00 [] [0x69, 0x00]) 0x00 0x00 0x00 0x02 0x0202 .ok = true ∧
    stepsTo (machine Config.default 0x0200 0xFF 0x00 0x00 0x00 [] [0x69, 0x01]) 0x00 0x00 0x00 0x03 0x0202 .ok = true ∧
    stepsTo (machine Config.default 0x0200 0x7F 0x00 0x00 0x00 [] [0x69, 0x01]) 0x80 0x00 0x00 0xC0 0x0202 .ok = true ∧
    stepsTo (machine Config.default 0x0200 0x80 0x00 0x00 0x00 [] [0x69, 0x80]) 0x00 0x00 0x00 0x43 0x0202 .ok = true ∧
    stepsTo (machine Config.default 0x0200 0x80 0x00 0x00 0x00 [] [0x69, 0xFF]) 0x7F 0x00 0x00 0x41 0x0202 .ok = true ∧
    stepsTo (machine Config.default 0x0200 0xFF 0x00 0x00 0x00 [] [0x69, 0xFF]) 0xFE 0x00 0x00 0x81 0x0202 .ok = true ∧
    stepsTo (machine Config.default 0x0200 0x7F 0x00 0x00 0x00 [] [0x69, 0x7F]) 0xFE 0x00 0x00 0xC0 0x0202 .ok = true ∧
    stepsTo (machine Config.default 0x0200 0x7F 0x00 0x00 0x00 [] [0x69, 0x80]) 0xFF 0x00 0x00 0x80 0x0202 .ok = true ∧
    stepsTo (machine Config.default 0x0200 0x01 0x00 0x00 0x00 [] [0x69, 0xFF]) 0x00 0x00 0x00 0x03 0x0202 .ok = true ∧
    stepsTo (machine Config.default 0x0200 0x50 0x00 0x00 0x00 [] [0x69, 0x50]) 0xA0 0x00 0x00 0xC0 0x0202 .ok = true ∧
    stepsTo (machine Config.default 0x0200 0xD0 0x00 0x00 0x00 [] [0x69, 0x90]) 0x60 0x00 0x00 0x41 0x0202 .ok = true ∧
    stepsTo (machine Config.default 0x0200 0x01 0x00 0x00 0x01 [] [0x69, 0x01]) 0x02 0x00 0x00 0x00 0x0202 .ok = true ∧
    stepsTo (machine Config.default 0x0200 0x00 0x00 0x00 0x01 [] [0x69, 0x00]) 0x00 0x00 0x00 0x02 0x0202 .ok = true ∧
    stepsTo (machine Config.default 0x0200 0x09 0x00 0x00 0x08 [] [0x69, 0x01]) 0x0A 0x00 0x00 0x08 0x0202 .ok = true ∧
    stepsTo (machine Config.default 0x0200 0x10 0x00 0x00 0xFF [] [0x69, 0x01]) 0x11 0x00 0x00 0x3C 0x0202 .ok = true := by
  decide +kernel

/-- 95_test_vectors.md V72 to V79. -/
theorem test_adc_memory_modes :
    stepsTo (machine Config.default 0x0200 0x10 0x00 0x00 0x00 [(0x0044, 0x22)] [0x65, 0x44]) 0x32 0x00 0x00 0x00 0x0202 .ok = true ∧
    stepsTo (machine Config.default 0x0200 0x10 0x04 0x00 0x00 [(0x0048, 0xF0)] [0x75, 0x44]) 0x00 0x04 0x00 0x03 0x0202 .ok = true ∧
    stepsTo (machine Config.default 0x0200 0x7F 0x00 0x00 0x00 [(0x1234, 0x7F)] [0x6D, 0x34, 0x12]) 0xFE 0x00 0x00 0xC0 0x0203 .ok = true ∧
    stepsTo (machine Config.default 0x0200 0x01 0x01 0x00 0x00 [(0x1300, 0x01)] [0x7D, 0xFF, 0x12]) 0x02 0x01 0x00 0x00 0x0203 .ok = true ∧
    stepsTo (machine Config.default 0x0200 0xFF 0x00 0x10 0x00 [(0x1244, 0x02)] [0x79, 0x34, 0x12]) 0x01 0x00 0x10 0x01 0x0203 .ok = true ∧
    stepsTo (machine Config.default 0x0200 0x80 0x04 0x00 0x00 [(0x0048, 0xCD), (0x0049, 0xAB), (0xABCD, 0x80)] [0x61, 0x44]) 0x00 0x04 0x00 0x43 0x0202 .ok = true ∧
    stepsTo (machine Config.default 0x0200 0x05 0x00 0x10 0x00 [(0x0044, 0x00), (0x0045, 0x30), (0x3010, 0x06)] [0x71, 0x44]) 0x0B 0x00 0x10 0x00 0x0202 .ok = true ∧
    stepsTo (machine Config.default 0x0200 0x13 0x00 0x00 0x00 [] [0x6D, 0x00, 0x02]) 0x80 0x00 0x00 0xC0 0x0203 .ok = true := by
  decide +kernel

/-! ## Markers and decode-only mnemonics: V80 to V115 -/

/-- 95_test_vectors.md V80 to V87. -/
theorem test_step_markers :
    stepsTo (machine Config.default 0x0200 0x12 0x34 0x56 0xC3 [] [0x02]) 0x12 0x34 0x56 0xC3 0x0200 .ok = true ∧
    stepsTo (machine Config.default 0xFFFF 0x12 0x34 0x56 0xC3 [] [0x02]) 0x12 0x34 0x56 0xC3 0xFFFF .ok = true ∧
    stepsTo (machine Config.default 0x0000 0x12 0x34 0x56 0xC3 [] [0x02]) 0x12 0x34 0x56 0xC3 0x0000 .ok = true ∧
    stepsTo (machine Config.default 0x0200 0x12 0x34 0x56 0xC3 [] [0xFF, 0xA9, 0x80]) 0x12 0x34 0x56 0xC3 0x0201 (.unimplementedOpcode 0xFF 0x0200) = true ∧
    stepsTo (machine Config.default 0x0200 0x12 0x34 0x56 0xC3 [] [0x03]) 0x12 0x34 0x56 0xC3 0x0201 (.unimplementedOpcode 0x03 0x0200) = true ∧
    stepsTo (machine Config.default 0xFFFF 0x12 0x34 0x56 0xC3 [] [0xFF]) 0x12 0x34 0x56 0xC3 0x0000 (.unimplementedOpcode 0xFF 0xFFFF) = true ∧
    stepsTo (machine { Config.default with haltOpcode := 0xFF } 0x0200 0x12 0x34 0x56 0xC3 [] [0x02]) 0x12 0x34 0x56 0xC3 0x0201 (.unimplementedOpcode 0x02 0x0200) = true ∧
    stepsTo (machine { Config.default with haltOpcode := 0xFF } 0x0200 0x12 0x34 0x56 0xC3 [] [0xFF]) 0x12 0x34 0x56 0xC3 0x0200 .ok = true := by
  decide +kernel

/-- 95_test_vectors.md V88 to V91. -/
theorem test_step_decodeOnly_V88_to_V91 :
    stepsTo (machine Config.default 0x0200 0x12 0x34 0x56 0xC3 [] [0xEA]) 0x12 0x34 0x56 0xC3 0x0201 (.unimplementedOpcode 0xEA 0x0200) = true ∧
    stepsTo (machine Config.default 0x0200 0x12 0x34 0x56 0xC3 [] [0xA2, 0x44]) 0x12 0x34 0x56 0xC3 0x0202 (.unimplementedOpcode 0xA2 0x0200) = true ∧
    stepsTo (machine Config.default 0x0200 0x12 0x34 0x56 0xC3 [] [0xA0, 0x44]) 0x12 0x34 0x56 0xC3 0x0202 (.unimplementedOpcode 0xA0 0x0200) = true ∧
    stepsTo (machine Config.default 0x0200 0x12 0x34 0x56 0xC3 [] [0x8D, 0x34, 0x12]) 0x12 0x34 0x56 0xC3 0x0203 (.unimplementedOpcode 0x8D 0x0200) = true := by
  decide +kernel

/-- 95_test_vectors.md V92 to V95. -/
theorem test_step_decodeOnly_V92_to_V95 :
    stepsTo (machine Config.default 0x0200 0x12 0x34 0x56 0xC3 [] [0x29, 0x0F]) 0x12 0x34 0x56 0xC3 0x0202 (.unimplementedOpcode 0x29 0x0200) = true ∧
    stepsTo (machine Config.default 0x0200 0x12 0x34 0x56 0xC3 [] [0xE9, 0x01]) 0x12 0x34 0x56 0xC3 0x0202 (.unimplementedOpcode 0xE9 0x0200) = true ∧
    stepsTo (machine Config.default 0x0200 0x12 0x34 0x56 0xC3 [] [0xC9, 0x12]) 0x12 0x34 0x56 0xC3 0x0202 (.unimplementedOpcode 0xC9 0x0200) = true ∧
    stepsTo (machine Config.default 0x0200 0x12 0x34 0x56 0xC3 [] [0x0A]) 0x12 0x34 0x56 0xC3 0x0201 (.unimplementedOpcode 0x0A 0x0200) = true := by
  decide +kernel

/-- 95_test_vectors.md V96 to V99. -/
theorem test_step_decodeOnly_V96_to_V99 :
    stepsTo (machine Config.default 0x0200 0x12 0x34 0x56 0xC3 [(0x0044, 0x00)] [0xE6, 0x44]) 0x12 0x34 0x56 0xC3 0x0202 (.unimplementedOpcode 0xE6 0x0200) = true ∧
    stepsTo (machine Config.default 0x0200 0x12 0x34 0x56 0xC3 [] [0xE8]) 0x12 0x34 0x56 0xC3 0x0201 (.unimplementedOpcode 0xE8 0x0200) = true ∧
    stepsTo (machine Config.default 0x0200 0x12 0x34 0x56 0xC3 [] [0xAA]) 0x12 0x34 0x56 0xC3 0x0201 (.unimplementedOpcode 0xAA 0x0200) = true ∧
    stepsTo (machine Config.default 0x0200 0x12 0x34 0x56 0x00 [] [0x38]) 0x12 0x34 0x56 0x00 0x0201 (.unimplementedOpcode 0x38 0x0200) = true := by
  decide +kernel

/-- 95_test_vectors.md V100 to V103. -/
theorem test_step_decodeOnly_V100_to_V103 :
    stepsTo (machine Config.default 0x0200 0x12 0x34 0x56 0x01 [] [0x18]) 0x12 0x34 0x56 0x01 0x0201 (.unimplementedOpcode 0x18 0x0200) = true ∧
    stepsTo (machine Config.default 0x0200 0x12 0x34 0x56 0x00 [] [0xF8]) 0x12 0x34 0x56 0x00 0x0201 (.unimplementedOpcode 0xF8 0x0200) = true ∧
    stepsTo (machine Config.default 0x0200 0x12 0x34 0x56 0x00 [] [0x78]) 0x12 0x34 0x56 0x00 0x0201 (.unimplementedOpcode 0x78 0x0200) = true ∧
    stepsTo (machine Config.default 0x0200 0x12 0x34 0x56 0x00 [] [0xD0, 0x10]) 0x12 0x34 0x56 0x00 0x0202 (.unimplementedOpcode 0xD0 0x0200) = true := by
  decide +kernel

/-- 95_test_vectors.md V104 to V107. -/
theorem test_step_decodeOnly_V104_to_V107 :
    stepsTo (machine Config.default 0x0200 0x12 0x34 0x56 0x02 [] [0xF0, 0xFE]) 0x12 0x34 0x56 0x02 0x0202 (.unimplementedOpcode 0xF0 0x0200) = true ∧
    stepsTo (machine Config.default 0x0200 0x12 0x34 0x56 0xC3 [] [0x4C, 0x34, 0x12]) 0x12 0x34 0x56 0xC3 0x0203 (.unimplementedOpcode 0x4C 0x0200) = true ∧
    stepsTo (machine Config.default 0x0200 0x12 0x34 0x56 0xC3 [(0x0334, 0x78), (0x0335, 0x56)] [0x6C, 0x00, 0x03]) 0x12 0x34 0x56 0xC3 0x0203 (.unimplementedOpcode 0x6C 0x0200) = true ∧
    stepsTo (machine Config.default 0x0200 0x12 0x34 0x56 0xC3 [] [0x20, 0x34, 0x12]) 0x12 0x34 0x56 0xC3 0x0203 (.unimplementedOpcode 0x20 0x0200) = true := by
  decide +kernel

/-- 95_test_vectors.md V108 to V111. -/
theorem test_step_decodeOnly_V108_to_V111 :
    stepsTo (machine Config.default 0x0200 0x12 0x34 0x56 0xC3 [] [0x60]) 0x12 0x34 0x56 0xC3 0x0201 (.unimplementedOpcode 0x60 0x0200) = true ∧
    stepsTo (machine Config.default 0x0200 0x12 0x34 0x56 0xC3 [] [0x40]) 0x12 0x34 0x56 0xC3 0x0201 (.unimplementedOpcode 0x40 0x0200) = true ∧
    stepsTo (machine Config.default 0x0200 0x12 0x34 0x56 0xC3 [] [0x00]) 0x12 0x34 0x56 0xC3 0x0201 (.unimplementedOpcode 0x00 0x0200) = true ∧
    stepsTo (machine Config.default 0x0200 0x12 0x34 0x56 0xC3 [] [0x48]) 0x12 0x34 0x56 0xC3 0x0201 (.unimplementedOpcode 0x48 0x0200) = true := by
  decide +kernel

/-- 95_test_vectors.md V112 to V115. -/
theorem test_step_decodeOnly_V112_to_V115 :
    stepsTo (machine Config.default 0x0200 0x12 0x34 0x56 0xC3 [] [0x68]) 0x12 0x34 0x56 0xC3 0x0201 (.unimplementedOpcode 0x68 0x0200) = true ∧
    stepsTo (machine Config.default 0x0200 0x12 0x34 0x56 0xC3 [] [0x08]) 0x12 0x34 0x56 0xC3 0x0201 (.unimplementedOpcode 0x08 0x0200) = true ∧
    stepsTo (machine Config.default 0x0200 0x12 0x34 0x56 0xC3 [] [0x9A]) 0x12 0x34 0x56 0xC3 0x0201 (.unimplementedOpcode 0x9A 0x0200) = true ∧
    stepsTo (machine Config.default 0x0200 0x12 0x34 0x56 0x00 [(0x0044, 0xC0)] [0x24, 0x44]) 0x12 0x34 0x56 0x00 0x0202 (.unimplementedOpcode 0x24 0x0200) = true := by
  decide +kernel

/-! ## Driver vectors: V116 to V138 -/

/-- 95_test_vectors.md V116: peeks between steps leave everything as it is. -/
theorem test_peek_peek_step :
    let s := machine Config.default 0x0000 0x11 0 0 0 [(0x1234, 0x99)] [0xAD, 0x34, 0x12]
    nextOf (operateAll [.peek, .peek, .step] s) =
      some ({ s with a := 0x99, p := flagsOf 0x80, pc := 0x0003, result := .ok },
        [.descriptor ⟨.lda, 0xAD, 0x1234, 2, .absolute⟩, .descriptor ⟨.lda, 0xAD, 0x1234, 2, .absolute⟩, .stepped .ok]) := by
  decide +kernel

/-- 95_test_vectors.md V117: a peek across the top of memory restores `pc` modulo 65536. -/
theorem test_peek_wraps :
    peeksAs (machine Config.default 0xFFFF 0 0 0 0 [] [0xAD, 0x34, 0x12]) ⟨.lda, 0xAD, 0x1234, 2, .absolute⟩ 0x0002
      [0xFFFF, 0x0000, 0x0001] = true := by
  decide +kernel

/-- 95_test_vectors.md V118, V119: a peek reads the pointer bytes as they are at that moment. -/
theorem test_peek_write_peek :
    let s := machine Config.default 0x0200 0 0 0x10 0 [(0x0044, 0x00), (0x0045, 0x30), (0x3010, 0xC3)] [0xB1, 0x44]
    (nextOf (operateAll [.peek, .write 0x0045 0x40, .peek] s)).map Prod.snd =
      some [.descriptor ⟨.lda, 0xB1, 0x3010, 1, .indirectIndexed⟩, .nothing, .descriptor ⟨.lda, 0xB1, 0x4010, 1, .indirectIndexed⟩] := by
  decide +kernel

/-- 95_test_vectors.md V120: a parked core. -/
theorem test_peek_step_peek_parked :
    let s := machine Config.default 0x0000 0 0 0 0 [] [0x02]
    nextOf (operateAll [.peek, .step, .peek] s) =
      some (s, [.descriptor ⟨.hlt, 0x02, 0x0000, 0, .implied⟩, .stepped .ok, .descriptor ⟨.hlt, 0x02, 0x0000, 0, .implied⟩]) := by
  decide +kernel

/-- 95_test_vectors.md V121, V124: fresh memory decodes as BRK; the peek raises nothing, the step does. -/
theorem test_fresh_memory :
    (nextOf (operateAll [.peek, .step] State.reset)).map Prod.snd =
      some [.descriptor ⟨.brk, 0x00, 0x0000, 0, .implied⟩, .stepped (.unimplementedOpcode 0x00 0x0000)] := by
  decide +kernel

/-- 95_test_vectors.md V122, V123, with the reset vector's bytes set: reset takes no `pc` from memory. -/
theorem test_reset :
    let s := machine Config.default 0xABCD 0xFF 0x12 0x34 0xFF [(0xFFFC, 0xFF), (0xFFFD, 0xFF)] [0xFF]
    nextOf (operateAll [.reset] s) = some (State.reset, [.nothing]) ∧
      nextOf (operateAll [.reset, .reset] s) = some (State.reset, [.nothing, .nothing]) := by
  decide +kernel

/-- 95_test_vectors.md V125: reset erases the program. -/
theorem test_reset_erases_program :
    nextOf (operateAll [.write 0x0000 0xA9, .write 0x0001 0x80, .step, .reset, .read 0x0000] State.reset) =
      some (State.reset, [.nothing, .nothing, .stepped .ok, .nothing, .byte 0x00]) := by
  decide +kernel

/-- 95_test_vectors.md V126 to V138. -/
theorem test_pack :
    (flagsOf 0x00).pack = 0x00 ∧ Flags.clear.pack = 0x00 ∧ ({ Flags.clear with n := true } : Flags).pack = 0x80 ∧
      ({ Flags.clear with v := true } : Flags).pack = 0x40 ∧ ({ Flags.clear with bhi := true } : Flags).pack = 0x20 ∧
      ({ Flags.clear with blo := true } : Flags).pack = 0x10 ∧ ({ Flags.clear with d := true } : Flags).pack = 0x08 ∧
      ({ Flags.clear with i := true } : Flags).pack = 0x04 ∧ ({ Flags.clear with z := true } : Flags).pack = 0x02 ∧
      ({ Flags.clear with c := true } : Flags).pack = 0x01 ∧ ({ Flags.clear with z := true, c := true } : Flags).pack = 0x03 ∧
      ({ Flags.clear with n := true, v := true } : Flags).pack = 0xC0 ∧
      ({ Flags.clear with v := true, z := true, c := true } : Flags).pack = 0x43 ∧ (flagsOf 0xFF).pack = 0xFF := by
  decide

/-! ## Memory, and where withFetchWord puts a word -/

theorem test_write_blank_unlists :
    ((State.reset.writeByte 0x1234 0x99).writeByte 0x1234 0x00) = State.reset := by decide +kernel
theorem test_writes_sorted :
    ((State.reset.writeByte 0xFFFF 0x01).writeByte 0x0000 0x02).mem = [(0x0000, 0x02), (0xFFFF, 0x01)] := by decide +kernel
theorem test_withFetchWord_runs_first :
    nextOf (step (State.reset.withFetchWord 16 0x80A9)) =
      some { State.reset.withFetchWord 16 0x80A9 with a := 0x80, p := flagsOf 0x80, pc := 0x0002 } := by decide +kernel

/-! ## Witnesses: the hypotheses of each obligation can be met, one theorem an obligation, at boundary values where there are several clauses -/

/-- LDA, ADC and another instruction each answer a next state; LDA of 0x80 sets N, LDA of 0x00 sets Z. -/
theorem test_witness_NegativeAndZeroFollowTheValue :
    exec (.lda (.immediate 0x80)) (program [0xA9, 0x80]) =
      .next { program [0xA9, 0x80] with a := 0x80, pc := 0x0202, p := flagsOf 0x80 } ∧
    exec (.lda (.immediate 0x00)) (program [0xA9, 0x00]) = .next { program [0xA9, 0x00] with pc := 0x0202, p := flagsOf 0x02 } ∧
    exec (.adc (.immediate 0x7F)) (program [0x69, 0x7F]) = .next { program [0x69, 0x7F] with a := 0x7F, pc := 0x0202 } ∧
    exec .nop (program [0xEA]) = .next { program [0xEA] with pc := 0x0201, result := .unimplementedOpcode 0xEA 0x0200 } :=
  ⟨eq_next (by decide +kernel), eq_next (by decide +kernel), eq_next (by decide +kernel), eq_next (by decide +kernel)⟩

/-- A canonical memory, and operations that neither write the address nor reset. -/
theorem test_witness_HostWriteIsReadBack :
    Memory.wf (program [0xA9, 0x80]).mem = true ∧
    ∀ op ∈ [DriverOp.peek, .step, .read 0xFFFF, .write 0xFFFE 0x01], op ≠ .reset ∧ ∀ b : Byte, op ≠ .write 0xFFFF b :=
  ⟨by decide +kernel, by simp⟩

/-- Operations between two reads that neither write nor reset. -/
theorem test_witness_HostReadHasNoEffect :
    ∀ op ∈ [DriverOp.step, .peek, .read 0xFFFF], op ≠ .reset ∧ ∀ (k : Word) (b : Byte), op ≠ .write k b := by
  simp

/-- Two canonical memories that read alike everywhere. -/
theorem test_witness_CanonicalMemoriesAreDeterminedByTheirReads :
    Memory.wf [(0x0000, 0x01), (0xFFFF, 0x02)] = true ∧ Memory.wf (Memory.write [(0xFFFF, 0x02)] 0x0000 0x01) = true ∧
    ∀ addr : Word, Memory.read [(0x0000, 0x01), (0xFFFF, 0x02)] addr.toNat =
      Memory.read (Memory.write [(0xFFFF, 0x02)] 0x0000 0x01) addr.toNat :=
  ⟨by decide, by decide, fun _ => rfl⟩

theorem test_witness_DecodeOfEncodeIsIdentity :
    wellFormed Config.default (.jmp (.indirect 0xFF 0xFF)) = true ∧ wellFormed Config.default .hlt = true ∧
    wellFormed { Config.default with haltOpcode := 0xFF } (.unk 0x02) = true := by
  decide

theorem test_witness_DecodedBytesAreTheEncoding :
    decode Config.default [0xBE, 0xFF, 0xFF, 0x00] = .ok (.ldx (.absoluteY 0xFF 0xFF), [0x00]) ∧
    decode Config.default [0xFF, 0x00] = .ok (.unk 0xFF, [0x00]) :=
  ⟨eq_ok (by decide +kernel), eq_ok (by decide +kernel)⟩

/-- Both cases: all operand bytes there, and one too few. -/
theorem test_witness_DecoderIsTotal :
    operandByteLengthOf Config.default 0xAD ≤ [(0x34 : Byte), 0x12].length ∧
    ¬ operandByteLengthOf Config.default 0xAD ≤ [(0x34 : Byte)].length := by
  decide +kernel

theorem test_witness_OpcodeMapFollowsTableAndHaltByte :
    Config.legal Config.default = true ∧ ⟨0xFE, .inc, .absoluteX⟩ ∈ opcodeTable ∧
    Config.isUnassigned 0xFF = true ∧ (0xFF : Byte) ≠ Config.default.haltOpcode := by
  decide +kernel

/-- Each clause at the edge: an Indirect pointer at 0xFFFF, an IndexedIndirect pointer at 0xFF, an IndirectIndexed pointer at 0xFF, each with the
address of its high byte under both choices of the parameter. -/
theorem test_witness_IndirectModesFollowPointers :
    let s := machine Config.default 0x0200 0 0x04 0 0 [] []
    let t := machine { Config.default with indirectAddsX := false, indirectPageWrapBug := true, zpPointerWrap := false } 0x0200 0 0x04 0 0 [] []
    (((0xFFFF : Nat) = if s.cfg.indirectAddsX then ((0xFF : Byte).toNat * 256 + (0xFB : Byte).toNat + s.x.toNat) % 65536 else 0xFFFB) ∧
      (0x0000 : Nat) = if s.cfg.indirectPageWrapBug then 0xFFFF / 256 * 256 + (0xFFFF % 256 + 1) % 256 else (0xFFFF + 1) % 65536) ∧
    (((0x12FF : Nat) = if t.cfg.indirectAddsX then 0x1303 else (0x12 : Byte).toNat * 256 + (0xFF : Byte).toNat) ∧
      (0x1200 : Nat) = if t.cfg.indirectPageWrapBug then 0x12FF / 256 * 256 + (0x12FF % 256 + 1) % 256 else (0x12FF + 1) % 65536) ∧
    ((0xFF : Nat) = ((0xFB : Byte).toNat + s.x.toNat) % 256 ∧ (0x00 : Nat) = if s.cfg.zpPointerWrap then (0xFF + 1) % 256 else 0xFF + 1) ∧
    ((0xFF : Nat) = ((0xFB : Byte).toNat + t.x.toNat) % 256 ∧ (0x100 : Nat) = if t.cfg.zpPointerWrap then (0xFF + 1) % 256 else 0xFF + 1) ∧
    ((0x00 : Nat) = if s.cfg.zpPointerWrap then ((0xFF : Byte).toNat + 1) % 256 else (0xFF : Byte).toNat + 1) ∧
    ((0x100 : Nat) = if t.cfg.zpPointerWrap then ((0xFF : Byte).toNat + 1) % 256 else (0xFF : Byte).toNat + 1) := by
  decide +kernel

/-- One operand of each class. -/
theorem test_witness_OperandValueFollowsItsClass :
    operandValue (.relative 0xFE) State.reset = some 0xFE ∧ operandValue .accumulator State.reset = none ∧
    operandValue (.absolute 0x01 0x02) (program [0xA9, 0x80]) = some 0x80 := by
  decide +kernel

theorem test_witness_LdaLoadsTheOperandValue :
    wellFormed State.reset.cfg (.lda (.immediate 0x00)) = true ∧ wellFormed State.reset.cfg (.lda (.indirectIndexed 0xFF)) = true := by
  decide

theorem test_witness_AdcAddsWithoutCarryIn :
    wellFormed State.reset.cfg (.adc (.immediate 0xFF)) = true ∧ wellFormed State.reset.cfg (.adc (.absoluteY 0xFF 0xFF)) = true := by
  decide

theorem test_witness_HltChangesNothingAndParks :
    (program [0x02]).parked = true ∧ okRun 3 (program [0x02]) = some (program [0x02]) := by
  decide +kernel

theorem test_witness_UnkRaisesUnimplementedOpcode :
    Config.isUnassigned 0x03 = true ∧ (0x03 : Byte) ≠ State.reset.cfg.haltOpcode := by
  decide

theorem test_witness_DecodeOnlyMnemonicsRaiseUnimplementedOpcode :
    wellFormed State.reset.cfg (.sta (.indirectIndexed 0xFF)) = true ∧ (Instr.sta (.indirectIndexed 0xFF)).mnemonic ≠ .lda ∧
    (Instr.sta (.indirectIndexed 0xFF)).mnemonic ≠ .adc ∧ (Instr.sta (.indirectIndexed 0xFF)).mnemonic ≠ .hlt ∧
    (Instr.sta (.indirectIndexed 0xFF)).mnemonic ≠ .unk := by
  decide

theorem test_witness_ImpossibleDescriptorsAreRefused :
    Instr.lda .accumulator ≠ .hlt ∧ wellFormed State.reset.cfg (.lda .accumulator) = false ∧
    Instr.unk 0xA9 ≠ .hlt ∧ wellFormed State.reset.cfg (.unk 0xA9) = false := by
  decide

/-- A load, an addition and an instruction that raises each answer a next state. -/
theorem test_witness_InstructionFrame :
    exec (.lda (.immediate 0xFF)) (program [0xA9, 0xFF]) =
      .next { program [0xA9, 0xFF] with a := 0xFF, pc := 0x0202, p := flagsOf 0x80 } ∧
    exec (.adc (.immediate 0x01)) (program [0x69, 0x01]) = .next { program [0x69, 0x01] with a := 0x01, pc := 0x0202 } ∧
    exec .pha (program [0x48]) = .next { program [0x48] with pc := 0x0201, result := .unimplementedOpcode 0x48 0x0200 } :=
  ⟨eq_next (by decide +kernel), eq_next (by decide +kernel), eq_next (by decide +kernel)⟩

/-- An instruction of three bytes that wraps at the top of memory. -/
theorem test_witness_StepRunsTheDecodedInstruction :
    let s := machine Config.default 0xFFFE 0 0 0 0 [] [0xAD, 0x34, 0x12]
    decode s.cfg [s.readByte s.pc, s.readByte (s.pc + 1), s.readByte (s.pc + 2)] = .ok (.lda (.absolute 0x34 0x12), []) :=
  eq_ok (by decide +kernel)

theorem test_witness_StoredWordIsTheNextInstruction :
    Memory.wf (program [0xFF]).mem = true ∧
    decode (program [0xFF]).cfg (tableWordBytes 16 0x80A9) = .ok (.lda (.immediate 0x80), [0x00]) := ⟨by decide +kernel, eq_ok (by decide +kernel)⟩

/-- Both cases: an executed opcode and one that raises, the second at the top of memory. -/
theorem test_witness_UnimplementedOpcodeDependsOnOpcodeByteAlone :
    let s := program [0x69, 0x01]
    let r := machine Config.default 0xFFFF 0 0 0 0 [] [0xFF]
    step s = .next { s with a := 0x01, pc := 0x0202 } ∧ opcodeMap s.cfg (s.readByte s.pc) = (.adc, .immediate) ∧
    step r = .next { r with pc := 0x0000, result := .unimplementedOpcode 0xFF 0xFFFF } ∧
    opcodeMap r.cfg (r.readByte r.pc) = (.unk, .implied) :=
  ⟨eq_next (by decide +kernel), by decide +kernel, eq_next (by decide +kernel), by decide +kernel⟩

/-- Both cases: a jump opcode, and the halt marker. -/
theorem test_witness_StepMovesPcPastTheInstruction :
    let s := program [0x4C, 0x34, 0x12]
    let h := program [0x02]
    step s = .next { s with pc := 0x0203, result := .unimplementedOpcode 0x4C 0x0200 } ∧
    opcodeMap s.cfg (s.readByte s.pc) = (.jmp, .absolute) ∧
    step h = .next h ∧ opcodeMap h.cfg (h.readByte h.pc) = (.hlt, .implied) :=
  ⟨eq_next (by decide +kernel), by decide +kernel, eq_next (by decide +kernel), by decide +kernel⟩

/-- Both sides: a parked state, and one whose step changes `pc` alone (LDA of the value `a` holds). -/
theorem test_witness_StepChangesNothingExactlyWhenParked :
    let h := program [0x02]
    let s := program [0xA5, 0x44]
    h.cfg.legal = true ∧ step h = .next h ∧ h.readByte h.pc = h.cfg.haltOpcode ∧
    s.cfg.legal = true ∧ step s = .next { s with pc := 0x0202, p := flagsOf 0x02 } ∧ s.readByte s.pc ≠ s.cfg.haltOpcode :=
  ⟨by decide, eq_next (by decide +kernel), by decide +kernel, by decide, eq_next (by decide +kernel), by decide +kernel⟩

/-- One for each clause: LDA, ADC, and an instruction that writes no flag. -/
theorem test_witness_NoInstructionReadsAFlag :
    let l := program [0xA9, 0x80]
    let s := program [0x69, 0x01]
    let b := program [0x90, 0xFE]
    step l = .next { l with a := 0x80, pc := 0x0202, p := flagsOf 0x80 } ∧ opcodeMap l.cfg (l.readByte l.pc) = (.lda, .immediate) ∧
    step s = .next { s with a := 0x01, pc := 0x0202 } ∧ opcodeMap s.cfg (s.readByte s.pc) = (.adc, .immediate) ∧
    step b = .next { b with pc := 0x0202, result := .unimplementedOpcode 0x90 0x0200 } ∧
    opcodeMap b.cfg (b.readByte b.pc) = (.bcc, .relative) :=
  ⟨eq_next (by decide +kernel), by decide +kernel, eq_next (by decide +kernel), by decide +kernel, eq_next (by decide +kernel),
    by decide +kernel⟩

theorem test_witness_AccessCounts :
    wellFormed State.reset.cfg (.adc (.indirectIndexed 0xFF)) = true ∧ wellFormed State.reset.cfg (.jmp (.indirect 0xFF 0xFF)) = true ∧
    wellFormed State.reset.cfg (.lda (.immediate 0)) = true ∧ wellFormed State.reset.cfg .hlt = true := by
  decide

/-- A second state with another accumulator, other flags and another data byte. -/
theorem test_witness_PeekDependsOnItsReadsAlone :
    let s := machine Config.default 0x0200 0 0 0x10 0 [(0x00FF, 0x34), (0x0000, 0x12), (0x1244, 0x99)] [0xB1, 0xFF]
    let s' := machine Config.default 0x0200 0x77 0 0x10 0xFF [(0x00FF, 0x34), (0x0000, 0x12), (0x1244, 0x55)] [0xB1, 0xFF]
    (∃ s1, s.fetchInstr = some (.lda (.indirectIndexed 0xFF), s1)) ∧
    s'.cfg = s.cfg ∧ s'.pc = s.pc ∧ s'.x = s.x ∧ s'.y = s.y ∧
    ∀ addr ∈ decodeReads (.lda (.indirectIndexed 0xFF)) s, s'.readByte addr = s.readByte addr :=
  ⟨exists_fetch (by decide +kernel), rfl, rfl, rfl, rfl, agree_of_all (by decide +kernel)⟩

/-- Another memory with the same bytes where the step reads. -/
theorem test_witness_StepDependsOnItsReadsAlone :
    let s := program [0xA5, 0x44]
    let m' : Memory := [(0x0200, 0xA5), (0x0201, 0x44), (0x0202, 0x77), (0xFFFF, 0x01)]
    (∃ s1, s.fetchInstr = some (.lda (.zeroPage 0x44), s1)) ∧
    step s = .next { s with pc := 0x0202, p := flagsOf 0x02 } ∧
    ∀ addr ∈ stepReads (.lda (.zeroPage 0x44)) s, Memory.read m' addr.toNat = s.readByte addr :=
  ⟨exists_fetch (by decide +kernel), eq_next (by decide +kernel), agree_of_all (by decide +kernel)⟩

theorem test_witness_PeekIsTransparent :
    let s := program [0xA9, 0x80]
    operateAll [.peek, .step, .peek, .read 0x0200] s =
      .next ({ s with a := 0x80, pc := 0x0202, p := flagsOf 0x80 },
        [.descriptor ⟨.lda, 0xA9, 0x0080, 1, .immediate⟩, .stepped .ok, .descriptor ⟨.brk, 0x00, 0x0000, 0, .implied⟩, .byte 0xA9]) :=
  eq_next (by decide +kernel)

theorem test_witness_StepKeepsReachable :
    (program [0x69, 0xFF]).Reachable ∧
    step (program [0x69, 0xFF]) = .next { program [0x69, 0xFF] with a := 0xFF, pc := 0x0202, p := flagsOf 0x80 } :=
  ⟨by unfold State.Reachable; decide +kernel, eq_next (by decide +kernel)⟩

theorem test_witness_DriverOperationsKeepReachable :
    State.reset.Reachable ∧
    operateAll [.write 0xFFFF 0xA9, .reset, .write 0x0000 0x02, .step, .peek] State.reset =
      .next (State.reset.writeByte 0x0000 0x02,
        [.nothing, .nothing, .nothing, .stepped .ok, .descriptor ⟨.hlt, 0x02, 0x0000, 0, .implied⟩]) :=
  ⟨by unfold State.Reachable; decide, eq_next (by decide +kernel)⟩

theorem test_witness_OnlyHostWriteAndResetChangeMemory :
    (∀ op ∈ [DriverOp.step, .peek, .read 0x0000], op ≠ .reset ∧ ∀ (addr : Word) (b : Byte), op ≠ .write addr b) ∧
    operateAll [.step, .peek, .read 0x0000] (program [0x8D, 0x00, 0x00, 0x02]) =
      .next ({ program [0x8D, 0x00, 0x00, 0x02] with pc := 0x0203, result := .unimplementedOpcode 0x8D 0x0200 },
        [.stepped (.unimplementedOpcode 0x8D 0x0200), .descriptor ⟨.hlt, 0x02, 0x0000, 0, .implied⟩, .byte 0x00]) :=
  ⟨by simp, eq_next (by decide +kernel)⟩

/-- An error at the top of memory, after which a step goes on at 0x0001. -/
theorem test_witness_SteppingAfterAnErrorSkipsTheInstruction :
    let s := machine Config.default 0xFFFF 0 0 0 0 [] [0xA2, 0x44, 0xA9, 0x80]
    let t := { s with pc := 0x0001, result := StepResult.unimplementedOpcode 0xA2 0xFFFF }
    step s = .next t ∧ t.result = .unimplementedOpcode 0xA2 0xFFFF ∧
    step t = .next { t with a := 0x80, p := flagsOf 0x80, pc := 0x0003, result := .ok } :=
  ⟨eq_next (by decide +kernel), rfl, eq_next (by decide +kernel)⟩

end Sys2Proof.Tests
end

section
/-! PROOFS of the family 00_scope.md: every operation of the driver completes. -/

namespace Sys2Proof.Machine

/-- Every step completes: the instruction at `pc` exists and is well formed, and a well-formed instruction has a meaning
(70_reset_and_hazards.md R241). -/
theorem step_completes (s : State) : ∃ t, step s = .next t := by
  obtain ⟨i, hfetch, -⟩ := s.fetchInstr_spec
  rw [step_of_fetchInstr hfetch]
  exact exec_of_wellFormed (State.fetchInstr_wellFormed hfetch)

/-- Every peek completes, with the state as it was (46_step_and_lookahead.md R193). -/
theorem peek_completes (s : State) : ∃ d, peek s = some (d, s) := by
  obtain ⟨i, hfetch, -⟩ := s.fetchInstr_spec
  exact ⟨describe i s, peek_of_fetchInstr hfetch⟩

/-- The driver's step replies with the result that the step leaves (46_step_and_lookahead.md R191). -/
theorem operate_step {s t : State} (h : step s = .next t) : operate .step s = .next (t, .stepped t.result) := by
  simp only [operate, h]

/-- The driver's peek replies with the descriptor (46_step_and_lookahead.md R193). -/
theorem operate_peek {s t : State} {d : Descriptor} (h : peek s = some (d, t)) :
    operate .peek s = .next (t, .descriptor d) := by
  simp only [operate, h]

/-- Each of the five operations completes from every state (00_scope.md R3, R4). -/
theorem operate_completes (op : DriverOp) (s : State) : ∃ t reply, operate op s = .next (t, reply) := by
  cases op with
  | reset => exact ⟨_, _, rfl⟩
  | step =>
    obtain ⟨t, h⟩ := step_completes s
    exact ⟨_, _, operate_step h⟩
  | peek =>
    obtain ⟨d, h⟩ := peek_completes s
    exact ⟨_, _, operate_peek h⟩
  | read addr => exact ⟨_, _, rfl⟩
  | write addr byte => exact ⟨_, _, rfl⟩

/-- Settles O42, by induction on the operations, from every state. -/
theorem driverOperationsAlwaysComplete : Obligations.DriverOperationsAlwaysComplete := by
  intro ops
  induction ops with
  | nil => exact fun s => ⟨s, [], rfl, rfl⟩
  | cons op ops ih =>
    intro s
    obtain ⟨u, reply, hop⟩ := operate_completes op s
    obtain ⟨t, replies, hrest, hlength⟩ := ih u
    exact ⟨t, reply :: replies, operateAll_cons.mpr ⟨u, reply, replies, hop, hrest, rfl⟩, congrArg Nat.succ hlength⟩

end Sys2Proof.Machine
end

section
/-! PROOFS of the family 10_state.md: what an instruction leaves unchanged, what it writes to the flags and the program counter, and the invariant of
the reachable states. -/

namespace Sys2Proof.Machine

/-! ## What no instruction changes -/

/-- The fields that no instruction writes are in `t` as they are in `s`: the parameters, the memory, the index registers, and the flags Bhi, Blo, D
and I (10_state.md R11, R12, R18; 20_memory.md R45). -/
structure State.SameUnwritten (s t : State) : Prop where
  cfg : t.cfg = s.cfg
  mem : t.mem = s.mem
  x : t.x = s.x
  y : t.y = s.y
  bhi : t.p.bhi = s.p.bhi
  blo : t.p.blo = s.p.blo
  d : t.p.d = s.p.d
  i : t.p.i = s.p.i

theorem State.SameUnwritten.readByte {s t : State} (h : s.SameUnwritten t) (addr : Word) : t.readByte addr = s.readByte addr := by
  simp only [State.readByte, h.mem]

theorem exec_sameUnwritten {i : Instr} {s t : State} (h : exec i s = .next t) : s.SameUnwritten t := by
  rcases exec_next_cases h with ⟨o, v, -, -, rfl⟩ | ⟨o, m, -, -, rfl⟩ | ⟨-, rfl⟩ | ⟨-, opcode, -, rfl⟩ <;>
    exact ⟨rfl, rfl, rfl, rfl, rfl, rfl, rfl, rfl⟩

/-! ## The instruction a step runs -/

/-- A step runs the instruction at `pc`, which has the opcode byte there and the mnemonic and mode of the opcode map
(46_step_and_lookahead.md R190). -/
theorem step_runs {s t : State} (h : step s = .next t) :
    ∃ i, s.fetchInstr = some (i, s.advance i.length) ∧ opcodeOf s.cfg i = some (s.readByte s.pc) ∧
      opcodeMap s.cfg (s.readByte s.pc) = (i.mnemonic, i.operand.mode) ∧ exec i s = .next t := by
  obtain ⟨i, hfetch, hop, -⟩ := s.fetchInstr_spec
  exact ⟨i, hfetch, hop, (opcodeMap_of_opcodeOf hop).1, (step_of_fetchInstr hfetch).symm.trans h⟩

theorem step_sameUnwritten {s t : State} (h : step s = .next t) : s.SameUnwritten t := by
  obtain ⟨i, -, -, -, hexec⟩ := step_runs h
  exact exec_sameUnwritten hexec

/-! ## The invariant of reachable states -/

theorem State.Reachable.of_sameUnwritten {s t : State} (hs : s.Reachable) (h : s.SameUnwritten t) : t.Reachable := by
  unfold State.Reachable at *
  rwa [h.cfg, h.mem, h.x, h.y, h.bhi, h.blo, h.d, h.i]

/-- A reset keeps the parameters and gives every other field of the invariant its reset value (10_state.md R24). -/
theorem State.Reachable.resetAgain {s : State} (hs : s.Reachable) : s.resetAgain.Reachable := by
  obtain ⟨hlegal, -⟩ := hs
  exact ⟨hlegal, s.resetAgain_wf, rfl, rfl, rfl, rfl, rfl, rfl⟩

/-- The host's write keeps the memory's canonical form and touches nothing else (20_memory.md R33). -/
theorem State.Reachable.writeByte {s : State} (hs : s.Reachable) (addr : Word) (b : Byte) : (s.writeByte addr b).Reachable := by
  obtain ⟨hlegal, hwf, hrest⟩ := hs
  exact ⟨hlegal, State.writeByte_wf addr b hwf, hrest⟩

theorem step_keeps_reachable {s t : State} (hs : s.Reachable) (h : step s = .next t) : t.Reachable :=
  hs.of_sameUnwritten (step_sameUnwritten h)

/-- Each of the driver's five operations keeps the invariant. -/
theorem operate_keeps_reachable {op : DriverOp} {s t : State} {reply : Reply} (hs : s.Reachable)
    (h : operate op s = .next (t, reply)) : t.Reachable := by
  cases op with
  | reset => cases h; exact hs.resetAgain
  | step =>
    obtain ⟨u, hstep⟩ := step_completes s
    cases (operate_step hstep).symm.trans h
    exact step_keeps_reachable hs hstep
  | peek =>
    obtain ⟨d, hpeek⟩ := peek_completes s
    cases (operate_peek hpeek).symm.trans h
    exact hs
  | read addr => cases h; exact hs
  | write addr byte => cases h; exact hs.writeByte addr byte

/-- Settles O44: the reset state has the default parameters, an empty memory, and zero in every other field. -/
theorem resetMeetsReachable : Obligations.ResetMeetsReachable :=
  ⟨by decide, State.reset_wf, rfl, rfl, rfl, rfl, rfl, rfl⟩

/-- Settles O45: a step writes none of the fields the invariant speaks of. -/
theorem stepKeepsReachable : Obligations.StepKeepsReachable := fun _ _ hs h => step_keeps_reachable hs h

/-- Settles O46, by induction on the operations, from every state that meets the invariant. -/
theorem driverOperationsKeepReachable : Obligations.DriverOperationsKeepReachable := by
  intro ops
  induction ops with
  | nil => intro s t replies hs h; cases h; exact hs
  | cons op ops ih =>
    intro s t replies hs h
    obtain ⟨u, reply, rest, hop, hrest, -⟩ := operateAll_cons.mp h
    exact ih u t rest (operate_keeps_reachable hs hop) hrest

/-! ## What an instruction writes -/

/-- N from bit 7 and Z from being zero: what `set_negative_zero` makes of a value (10_state.md R19). -/
theorem Flags.setNegativeZero_follows (p : Flags) (v : Byte) :
    (p.setNegativeZero v).n = v.getLsbD 7 ∧ ((p.setNegativeZero v).z = true ↔ v = 0) :=
  ⟨BitVec.msb_eq_getLsbD_last v, beq_iff_eq⟩

theorem Flags.setNegativeZero_not_both (p : Flags) (v : Byte) :
    ¬ ((p.setNegativeZero v).n = true ∧ (p.setNegativeZero v).z = true) := by
  rintro ⟨hn, hz⟩
  obtain rfl := (p.setNegativeZero_follows v).2.mp hz
  exact absurd hn (by simp)

/-- LDA and ADC set N and Z from the accumulator they leave (10_state.md R19). -/
theorem exec_negative_zero {i : Instr} {s t : State} (h : exec i s = .next t) (hm : i.mnemonic = .lda ∨ i.mnemonic = .adc) :
    t.p.n = t.a.getLsbD 7 ∧ (t.p.z = true ↔ t.a = 0) := by
  rcases exec_next_cases h with ⟨o, v, -, -, rfl⟩ | ⟨o, m, -, -, rfl⟩ | ⟨rfl, -⟩ | ⟨hx, -⟩
  · exact s.p.setNegativeZero_follows v
  · exact s.p.setNegativeZero_follows (s.a + m)
  · exact absurd hm (by decide)
  · exact absurd (hm.imp_right .inl) hx

/-- Every other instruction keeps the accumulator and all flags (10_state.md R10, R18). -/
theorem exec_keeps_a_p {i : Instr} {s t : State} (h : exec i s = .next t) (hlda : i.mnemonic ≠ .lda) (hadc : i.mnemonic ≠ .adc) :
    t.a = s.a ∧ t.p = s.p := by
  rcases exec_next_cases h with ⟨o, v, rfl, -⟩ | ⟨o, m, rfl, -⟩ | ⟨-, rfl⟩ | ⟨-, opcode, -, rfl⟩
  · exact absurd rfl hlda
  · exact absurd rfl hadc
  · exact ⟨rfl, rfl⟩
  · exact ⟨rfl, rfl⟩

/-- LDA keeps V and C (41_lda.md R100). -/
theorem exec_lda_keeps_v_c {i : Instr} {s t : State} (h : exec i s = .next t) (hm : i.mnemonic = .lda) :
    t.p.v = s.p.v ∧ t.p.c = s.p.c := by
  rcases exec_next_cases h with ⟨o, v, -, -, rfl⟩ | ⟨o, m, rfl, -⟩ | ⟨rfl, -⟩ | ⟨hx, -⟩
  · exact ⟨rfl, rfl⟩
  · exact absurd hm (by simp [Instr.mnemonic])
  · exact absurd hm (by decide)
  · exact absurd (.inl hm) hx

/-- HLT leaves `pc`; every other instruction moves it past itself (10_state.md R14). -/
theorem exec_pc {i : Instr} {s t : State} (h : exec i s = .next t) :
    t.pc = if i.mnemonic = .hlt then s.pc else s.pc + BitVec.ofNat 16 i.length := by
  rcases exec_next_cases h with ⟨o, v, rfl, -, rfl⟩ | ⟨o, m, rfl, -, rfl⟩ | ⟨rfl, rfl⟩ | ⟨hx, opcode, -, rfl⟩
  · rfl
  · rfl
  · rfl
  · rw [if_neg fun hm => hx (.inr (.inr hm))]
    rfl

/-- Settles O4: the flags of LDA and ADC are those of `set_negative_zero` on the new accumulator, and the others keep the flag register whole. -/
theorem negativeAndZeroFollowTheValue : Obligations.NegativeAndZeroFollowTheValue := by
  refine ⟨fun p v => ?_, fun i s t h => ?_⟩
  · obtain ⟨hn, hz⟩ := p.setNegativeZero_follows v
    exact ⟨hn, hz, p.setNegativeZero_not_both v, rfl, rfl, rfl, rfl, rfl, rfl⟩
  · split
    case isTrue hm => exact exec_negative_zero h hm
    case isFalse hm =>
      obtain ⟨hlda, hadc⟩ := not_or.mp hm
      obtain ⟨-, hp⟩ := exec_keeps_a_p h hlda hadc
      exact ⟨congrArg Flags.n hp, congrArg Flags.z hp⟩

/-- Settles O28, from the fields that no instruction writes and the accumulator and flags that LDA and ADC alone write. -/
theorem instructionFrame : Obligations.InstructionFrame := by
  intro i s t h
  have hsame := exec_sameUnwritten h
  exact ⟨hsame.cfg, hsame.x, hsame.y, hsame.bhi, hsame.blo, hsame.d, hsame.i, hsame.readByte, exec_keeps_a_p h,
    exec_lda_keeps_v_c h⟩

/-- Settles O33: the step's instruction has the mnemonic and the length the opcode map gives the byte at `pc`. -/
theorem stepMovesPcPastTheInstruction : Obligations.StepMovesPcPastTheInstruction := by
  intro s t m mode h hmap
  obtain ⟨i, -, -, hi, hexec⟩ := step_runs h
  cases hi.symm.trans hmap
  exact exec_pc hexec

/-! ## What an instruction does not read: the flags, and the earlier result -/

theorem operandValue_setP_setResult (o : Operand) (s : State) (q : Flags) (r : StepResult) :
    operandValue o ((s.setP q).setResult r) = operandValue o s :=
  operandValue_congr (by simp) fun _ => rfl

/-- The flags `q` with those taken from `w` that an instruction of mnemonic `m` writes (10_state.md R18). -/
def Flags.withWritten (q : Flags) (m : Mnemonic) (w : Flags) : Flags :=
  match m with
  | .lda => { q with n := w.n, z := w.z }
  | .adc => { q with n := w.n, v := w.v, z := w.z, c := w.c }
  | _ => q

theorem Flags.withWritten_other (q w : Flags) {m : Mnemonic} (hlda : m ≠ .lda) (hadc : m ≠ .adc) : q.withWritten m w = q := by
  unfold Flags.withWritten
  split
  · exact absurd rfl hlda
  · exact absurd rfl hadc
  · rfl

/-- With other flags and another earlier result before it, an instruction that completes answers the same, but for the flags it does not write
(10_state.md R18, R22; 42_adc.md R105, D5). -/
theorem exec_setP_setResult {i : Instr} {s t : State} {opcode : Byte} (q : Flags) (r : StepResult)
    (hop : opcodeOf s.cfg i = some opcode) (h : exec i s = .next t) :
    exec i ((s.setP q).setResult r) = .next (t.setP (q.withWritten i.mnemonic t.p)) := by
  rcases exec_next_cases h with ⟨o, v, rfl, hv, rfl⟩ | ⟨o, m, rfl, hv, rfl⟩ | ⟨rfl, rfl⟩ | ⟨hx, opcode', hop', rfl⟩
  · rw [exec_lda]
    exact executeOnValue_of loadAccumulator hop ((operandValue_setP_setResult o s q r).trans hv)
  · rw [exec_adc]
    exact executeOnValue_of addToAccumulator hop ((operandValue_setP_setResult o s q r).trans hv)
  · exact exec_hlt ((s.setP q).setResult r)
  · rw [exec_decodeOnly _ hx, q.withWritten_other _ (fun hm => hx (.inl hm)) fun hm => hx (.inr (.inl hm))]
    exact raiseForDecodeOnly_of_opcodeOf hop'

/-- A step reads neither the flags nor the earlier result: with others before it the same instruction is fetched, and its execution reads none
of them. -/
theorem step_setP_setResult {s t : State} (q : Flags) (r : StepResult) (h : step s = .next t) :
    step ((s.setP q).setResult r) = .next (t.setP (q.withWritten (opcodeMap s.cfg (s.readByte s.pc)).1 t.p)) := by
  obtain ⟨i, hfetch, hop, hmap, hexec⟩ := step_runs h
  have hfetch' := State.fetchInstr_congr (s := s) (s' := (s.setP q).setResult r) rfl rfl hfetch fun _ _ => rfl
  rw [step_of_fetchInstr hfetch', hmap]
  exact exec_setP_setResult q r hop hexec

/-- Settles O35: the step from the other flags, the earlier result left as it is. -/
theorem noInstructionReadsAFlag : Obligations.NoInstructionReadsAFlag := by
  intro s t q m mode h hmap
  have hstep := step_setP_setResult q s.result h
  rw [hmap] at hstep
  refine ⟨q.withWritten m t.p, hstep, ?_, ?_, q.withWritten_other t.p⟩
  · rintro rfl; rfl
  · rintro rfl; rfl

/-- Settles O36: the step from the other result and the step from the state's own, the flags left as they are, answer one state. -/
theorem earlierResultIsNotRead : Obligations.EarlierResultIsNotRead := by
  intro s r
  obtain ⟨t, h⟩ := step_completes s
  exact (step_setP_setResult s.p r h).trans (step_setP_setResult s.p s.result h).symm

/-! ## Reset and the packed status byte -/

/-- Settles O2: the power-on state is the reset state, and a reset keeps the parameters alone, so a second one finds nothing to change. -/
theorem powerOnIsResetAndResetIsIdempotent : Obligations.PowerOnIsResetAndResetIsIdempotent :=
  ⟨⟨rfl, rfl, rfl, rfl, rfl, fun _ => rfl, State.reset_wf⟩, rfl, fun _ => rfl⟩

/-- The packed byte puts one flag after the other, N first (10_state.md R17). -/
theorem Flags.pack_getLsbD (p : Flags) (k : Nat) :
    p.pack.getLsbD k = ((BitVec.ofBool p.n).concat p.v |>.concat p.bhi |>.concat p.blo |>.concat p.d |>.concat p.i
      |>.concat p.z |>.concat p.c).getLsbD k := rfl

/-- Settles O5: a flag's bit is the number of flags put after it. -/
theorem packedStatusBitOrder : Obligations.PackedStatusBitOrder := by
  intro p
  simp only [Flags.pack_getLsbD, BitVec.getLsbD_concat_succ, BitVec.getLsbD_concat_zero, and_self, and_true]
  exact (BitVec.getLsbD_ofBool p.n 0).trans (by simp)

end Sys2Proof.Machine
end

section
/-! PROOFS of the family 20_memory.md: what the driver's operations do to memory, the canonical form, the program a host stores, and the bytes an
instruction reads. -/

namespace Sys2Proof.Machine

/-! ## What the driver's operations do to memory -/

theorem State.SameUnwritten.refl (s : State) : s.SameUnwritten s := ⟨rfl, rfl, rfl, rfl, rfl, rfl, rfl, rfl⟩

theorem State.SameUnwritten.trans {s t u : State} (h : s.SameUnwritten t) (h' : t.SameUnwritten u) : s.SameUnwritten u :=
  ⟨h'.cfg.trans h.cfg, h'.mem.trans h.mem, h'.x.trans h.x, h'.y.trans h.y, h'.bhi.trans h.bhi, h'.blo.trans h.blo,
    h'.d.trans h.d, h'.i.trans h.i⟩

/-- Reset and the host's write apart, an operation of the driver writes what an instruction writes, and no more (20_memory.md R45). -/
theorem operate_sameUnwritten {op : DriverOp} {s t : State} {reply : Reply} (hreset : op ≠ .reset)
    (hwrite : ∀ (k : Word) (b : Byte), op ≠ .write k b) (h : operate op s = .next (t, reply)) : s.SameUnwritten t := by
  cases op with
  | reset => exact absurd rfl hreset
  | step =>
    obtain ⟨u, hstep⟩ := step_completes s
    cases (operate_step hstep).symm.trans h
    exact step_sameUnwritten hstep
  | peek =>
    obtain ⟨d, hpeek⟩ := peek_completes s
    cases (operate_peek hpeek).symm.trans h
    exact .refl s
  | read addr => cases h; exact .refl s
  | write addr byte => exact absurd rfl (hwrite addr byte)

/-- An operation that neither resets nor writes an address keeps the byte there (20_memory.md R33). -/
theorem operate_keeps_byte {op : DriverOp} {s t : State} {reply : Reply} {addr : Word} (hreset : op ≠ .reset)
    (hwrite : ∀ b : Byte, op ≠ .write addr b) (h : operate op s = .next (t, reply)) : t.readByte addr = s.readByte addr := by
  by_cases hw : ∃ k b, op = .write k b
  · obtain ⟨k, b, rfl⟩ := hw
    cases h
    exact State.readByte_writeByte_other b fun e => hwrite b (by rw [e])
  · exact (operate_sameUnwritten hreset (fun k b e => hw ⟨k, b, e⟩) h).readByte addr

/-- A relation of states that is reflexive and transitive and that each allowed operation meets is met by every sequence of allowed operations. -/
theorem operateAll_relates {allowed : DriverOp → Prop} {related : State → State → Prop} (hrefl : ∀ s : State, related s s)
    (htrans : ∀ {s t u : State}, related s t → related t u → related s u)
    (hop : ∀ {op s t reply}, allowed op → operate op s = .next (t, reply) → related s t) {ops : List DriverOp} {s t : State}
    {replies : List Reply} (hops : ∀ op ∈ ops, allowed op) (h : operateAll ops s = .next (t, replies)) : related s t := by
  induction ops generalizing s replies with
  | nil => cases h; exact hrefl _
  | cons op ops ih =>
    obtain ⟨u, reply, rest, hfirst, hrest, -⟩ := operateAll_cons.mp h
    obtain ⟨hallowed, hops⟩ := List.forall_mem_cons.mp hops
    exact htrans (hop hallowed hfirst) (ih hops hrest)

/-- Operations that neither reset nor write an address complete and keep the byte there (20_memory.md R33). -/
theorem operateAll_keeps_byte {ops : List DriverOp} {addr : Word} (s : State)
    (hops : ∀ op ∈ ops, op ≠ .reset ∧ ∀ b : Byte, op ≠ .write addr b) :
    ∃ u replies, operateAll ops s = .next (u, replies) ∧ u.readByte addr = s.readByte addr := by
  obtain ⟨u, replies, h, -⟩ := driverOperationsAlwaysComplete ops s
  exact ⟨u, replies, h, operateAll_relates (related := fun s t => t.readByte addr = s.readByte addr) (fun _ => rfl)
    (fun h1 h2 => h2.trans h1) (fun hop h1 => operate_keeps_byte hop.1 hop.2 h1) hops h⟩

theorem operate_read (s : State) (addr : Word) : operate (.read addr) s = .next (s, .byte (s.readByte addr)) := rfl

/-- Settles O7: the write puts the byte there, and the operations after it, which neither reset nor write the address, keep it. -/
theorem hostWriteIsReadBack : Obligations.HostWriteIsReadBack := by
  intro s addr v hwf
  have hsame := State.readByte_writeByte_same addr v hwf
  refine ⟨s.writeByte addr v, rfl, hsame, fun other => State.readByte_writeByte_other v, rfl, rfl, rfl, rfl, rfl, rfl, rfl,
    fun ops hops => ?_⟩
  obtain ⟨u, replies, hall, hkept⟩ := operateAll_keeps_byte (s.writeByte addr v) hops
  exact ⟨u, replies, hall, by rw [operate_read, hkept, hsame]⟩

/-- Settles O8: a read leaves the state as it is, and the operations after it keep the byte. -/
theorem hostReadHasNoEffect : Obligations.HostReadHasNoEffect := by
  intro s addr
  refine ⟨operate_read s addr, fun ops hops => ?_⟩
  obtain ⟨u, replies, hall, hkept⟩ :=
    operateAll_keeps_byte (addr := addr) s fun op hop => ⟨(hops op hop).1, (hops op hop).2 addr⟩
  exact ⟨u, replies, operateAll_cons.mpr ⟨s, _, replies, operate_read s addr, hall, rfl⟩, by rw [operate_read, hkept]⟩

/-- Settles O47: each operation but reset and write keeps what no instruction writes, and so does every sequence of them. -/
theorem onlyHostWriteAndResetChangeMemory : Obligations.OnlyHostWriteAndResetChangeMemory := by
  intro ops s t replies hops h
  obtain ⟨hcfg, hmem, hx, hy, hbhi, hblo, hd, hi⟩ := operateAll_relates (related := State.SameUnwritten)
    State.SameUnwritten.refl State.SameUnwritten.trans (fun hop h1 => operate_sameUnwritten hop.1 hop.2 h1) hops h
  exact ⟨hmem, hx, hy, hcfg, hbhi, hblo, hd, hi⟩

/-! ## The canonical form of memory -/

theorem Memory.read_cons_self (k : Nat) (b : Byte) (rest : Memory) : Memory.read ((k, b) :: rest) k = b := by
  simp [Memory.read]

theorem Memory.read_cons_other {k j : Nat} (b : Byte) (rest : Memory) (h : j ≠ k) :
    Memory.read ((k, b) :: rest) j = Memory.read rest j := by
  simp [Memory.read, h.symm]

/-- A canonical memory that reads the same at an address another one lists does not begin above it. -/
theorem Memory.low_le_of_read_eq {low k : Nat} {b : Byte} {rest m' : Memory} (hb : b ≠ Memory.blank)
    (hm' : Memory.wfFrom low m' = true) (h : Memory.read ((k, b) :: rest) k = Memory.read m' k) : low ≤ k := by
  by_contra hlt
  rw [Memory.read_cons_self, Memory.read_below hm' (Nat.lt_of_not_le hlt)] at h
  exact hb h

/-- A canonical memory is determined by its reads: two that read alike begin at the same address, with the same byte there, and so on from the next
address. -/
theorem Memory.wfFrom_ext {low low' : Nat} {m m' : Memory} (hm : Memory.wfFrom low m = true) (hm' : Memory.wfFrom low' m' = true)
    (h : ∀ k < 65536, Memory.read m k = Memory.read m' k) : m = m' := by
  induction m generalizing low low' m' with
  | nil =>
    match m', hm' with
    | [], _ => rfl
    | (k', b') :: rest', hm' =>
      obtain ⟨-, hk', hb', -⟩ := Memory.wfFrom_cons.mp hm'
      exact absurd (Memory.low_le_of_read_eq (low := k' + 1) hb' rfl (h k' hk').symm) (Nat.not_succ_le_self k')
  | cons c rest ih =>
    obtain ⟨k, b⟩ := c
    obtain ⟨-, hk, hb, hrest⟩ := Memory.wfFrom_cons.mp hm
    match m', hm' with
    | [], _ => exact absurd (Memory.low_le_of_read_eq (low := k + 1) hb rfl (h k hk)) (Nat.not_succ_le_self k)
    | (k', b') :: rest', hm' =>
      obtain ⟨-, hk', hb', hrest'⟩ := Memory.wfFrom_cons.mp hm'
      have hkey : k = k' := Nat.le_antisymm
        (Memory.low_le_of_read_eq hb' (Memory.wfFrom_cons.mpr ⟨le_rfl, hk, hb, hrest⟩) (h k' hk').symm)
        (Memory.low_le_of_read_eq hb (Memory.wfFrom_cons.mpr ⟨le_rfl, hk', hb', hrest'⟩) (h k hk))
      subst hkey
      have hbyte : b = b' := by simpa only [Memory.read_cons_self] using h k hk
      have htail : rest = rest' := ih hrest hrest' fun j hj => by
        by_cases hjk : j = k
        · subst hjk
          rw [Memory.read_below hrest (Nat.lt_succ_self j), Memory.read_below hrest' (Nat.lt_succ_self j)]
        · simpa only [Memory.read_cons_other _ _ hjk] using h j hj
      rw [hbyte, htail]

/-- Settles O9: every address key below 65536 is the number of a word. -/
theorem canonicalMemoriesAreDeterminedByTheirReads : Obligations.CanonicalMemoriesAreDeterminedByTheirReads := by
  intro m m' hm hm' h
  refine Memory.wfFrom_ext hm hm' fun k hk => ?_
  simpa only [BitVec.toNat_ofNat, Nat.mod_eq_of_lt hk] using h (BitVec.ofNat 16 k)

/-! ## Bytes at successive addresses -/

theorem mem_addressesFrom {a addr : Word} {n : Nat} : addr ∈ addressesFrom a n ↔ ∃ k < n, addr = a + BitVec.ofNat 16 k := by
  induction n generalizing a with
  | zero => simp [addressesFrom]
  | succ n ih =>
    rw [addressesFrom, List.mem_cons, ih, Nat.exists_lt_succ_left]
    simp [BitVec.ofNat_add, BitVec.add_assoc, BitVec.add_comm 1#16]

/-- Fewer than 65536 addresses from the next one on do not come round to an address (10_state.md R15). -/
theorem not_mem_addressesFrom_next {a : Word} {n : Nat} (hn : n < 65536) : a ∉ addressesFrom (a + 1) n := by
  intro h
  obtain ⟨k, hk, heq⟩ := mem_addressesFrom.mp h
  bv_omega

theorem addressesFrom_add (a : Word) (m n : Nat) :
    addressesFrom a (m + n) = addressesFrom a m ++ addressesFrom (a + BitVec.ofNat 16 m) n := by
  induction m generalizing a with
  | zero => simp [addressesFrom]
  | succ m ih =>
    rw [Nat.add_right_comm, addressesFrom, addressesFrom, ih, BitVec.add_assoc, Nat.add_comm m 1, BitVec.ofNat_add]
    rfl

@[simp] theorem State.writeBytes_cfg (s : State) (a : Word) (bs : List Byte) : (s.writeBytes a bs).cfg = s.cfg := by
  induction bs generalizing s a with
  | nil => rfl
  | cons b rest ih => exact ih (s.writeByte a b) (a + 1)

@[simp] theorem State.writeBytes_pc (s : State) (a : Word) (bs : List Byte) : (s.writeBytes a bs).pc = s.pc := by
  induction bs generalizing s a with
  | nil => rfl
  | cons b rest ih => exact ih (s.writeByte a b) (a + 1)

/-- Stored bytes leave every address outside their range alone (20_memory.md R33). -/
theorem State.readByte_writeBytes_other {s : State} {a addr : Word} {bs : List Byte} (h : addr ∉ addressesFrom a bs.length) :
    (s.writeBytes a bs).readByte addr = s.readByte addr := by
  induction bs generalizing s a with
  | nil => rfl
  | cons b rest ih =>
    obtain ⟨hne, hrest⟩ := not_or.mp (mt List.mem_cons.mpr h)
    exact (ih hrest).trans (State.readByte_writeByte_other b hne)

/-- Stored bytes are read back from the addresses they were stored at, where they are no more than the address space holds. -/
theorem State.map_readByte_writeBytes {s : State} (a : Word) {bs : List Byte} (hwf : Memory.wf s.mem = true)
    (hlen : bs.length ≤ 65536) : (addressesFrom a bs.length).map (s.writeBytes a bs).readByte = bs := by
  induction bs generalizing s a with
  | nil => rfl
  | cons b rest ih =>
    have hfirst : ((s.writeByte a b).writeBytes (a + 1) rest).readByte a = b :=
      (State.readByte_writeBytes_other (not_mem_addressesFrom_next hlen)).trans (State.readByte_writeByte_same a b hwf)
    have hrest := ih (a + 1) (State.writeByte_wf a b hwf) (Nat.le_of_succ_le hlen)
    exact congrArg₂ List.cons hfirst hrest

/-! ## The instruction fetched is the one the bytes at `pc` decode to -/

/-- Where the three bytes from `pc` on decode to an instruction, that one is fetched (40_decode_and_resolve.md R70, 30_encoding.md R50). -/
theorem State.fetchInstr_of_decode {s : State} {i : Instr} {rest : List Byte}
    (h : decode s.cfg ((addressesFrom s.pc 3).map s.readByte) = .ok (i, rest)) :
    s.fetchInstr = some (i, s.advance i.length) := by
  obtain ⟨j, hfetch, hop, hmn, hmode, hbytes⟩ := s.fetchInstr_spec
  obtain ⟨n, hn⟩ := Nat.exists_eq_add_of_le (Laws.Mode.byteLength_le_two j.operand.mode)
  have hthree : (addressesFrom s.pc 3).map s.readByte = s.readByte s.pc ::
      (j.operand.bytes ++ (addressesFrom (s.pc + 1 + BitVec.ofNat 16 j.operandByteLength) n).map s.readByte) := by
    rw [hbytes, ← List.map_append, ← addressesFrom_add, Instr.operandByteLength, ← hn]
    rfl
  rw [hthree, decode_cons _ _ _ _ hmode, ← hmn, Instr.ofParts_self j _ (opcodeMap_of_opcodeOf hop).2] at h
  cases h
  exact hfetch

/-- Settles O30: the three bytes of the word are read back where the step fetches. -/
theorem storedWordIsTheNextInstruction : Obligations.StoredWordIsTheNextInstruction := by
  intro s nbits w i rest hwf hdecode
  have hbytes : (addressesFrom s.pc 3).map (s.withFetchWord nbits w).readByte = tableWordBytes nbits w :=
    State.map_readByte_writeBytes s.pc hwf (show 3 ≤ 65536 by decide)
  refine step_of_fetchInstr (State.fetchInstr_of_decode (rest := rest) ?_)
  rw [State.withFetchWord, State.writeBytes_cfg, State.writeBytes_pc]
  exact (congrArg (decode s.cfg) hbytes).trans hdecode

/-! ## How many bytes an instruction reads -/

/-- The three indirect modes follow a pointer of two bytes, the others none (20_memory.md R37). -/
theorem pointerReads_length (o : Operand) (s : State) : (pointerReads o s).length =
    if o.mode = .indirect ∨ o.mode = .indexedIndirect ∨ o.mode = .indirectIndexed then 2 else 0 := by
  cases o <;> rfl

/-- The execution of LDA or ADC reads one data byte where its operand is an address (20_memory.md R37, R45). -/
theorem dataReads_of_lda_or_adc {i : Instr} (s : State) (hm : i.mnemonic = .lda ∨ i.mnemonic = .adc) :
    dataReads i s = if classOf i.operand.mode = .address then [resolve i.operand s] else [] := by
  unfold dataReads
  rcases hm with hm | hm <;> cases classOf i.operand.mode <;> rw [hm] <;> rfl

/-- No other execution reads data (20_memory.md R45). -/
theorem dataReads_of_not_lda_or_adc {i : Instr} (s : State) (hm : ¬ (i.mnemonic = .lda ∨ i.mnemonic = .adc)) :
    dataReads i s = [] := by
  obtain ⟨hlda, hadc⟩ := not_or.mp hm
  unfold dataReads
  split
  case h_1 h _ => exact absurd h hlda
  case h_2 h _ => exact absurd h hadc
  case h_3 => rfl

/-- A well-formed LDA or ADC has a mode of its row in the table by mnemonic (30_encoding.md R55). -/
theorem hasMode_of_wellFormed {cfg : Config} {i : Instr} (hm : i.mnemonic = .lda ∨ i.mnemonic = .adc)
    (h : wellFormed cfg i = true) : i.mnemonic.hasMode i.operand.mode = true := by
  have hhlt : i.mnemonic ≠ .hlt := by rcases hm with hm | hm <;> simp [hm]
  have hunk : i.mnemonic ≠ .unk := by rcases hm with hm | hm <;> simp [hm]
  exact (opcodeOf_legal cfg hhlt hunk).2.symm.trans h

/-- Every form of LDA and ADC but Immediate has an address for its operand (30_encoding.md R55, 40_decode_and_resolve.md R88). -/
theorem classOf_eq_address_iff {m : Mnemonic} {mode : Mode} (hm : m = .lda ∨ m = .adc) (h : m.hasMode mode = true) :
    classOf mode = .address ↔ mode ≠ .immediate := by
  have hlda : Mnemonic.hasMode .lda mode = true := by rcases hm with rfl | rfl <;> exact h
  revert hlda
  cases mode <;> decide

/-- Settles O37: the instruction's own bytes, at most three, and at most two pointer bytes; a data byte for LDA and ADC in the memory modes. -/
theorem accessCounts : Obligations.AccessCounts := by
  intro s i hwf
  have hdecode : (decodeReads i s).length = 1 + i.operandByteLength + (pointerReads i.operand s).length := by
    rw [decodeReads, List.length_append, addressesFrom_length, Instr.length]
  have hlen : i.operandByteLength ≤ 2 := Laws.Mode.byteLength_le_two i.operand.mode
  rw [pointerReads_length] at hdecode
  refine ⟨hdecode, by split at hdecode <;> omega, ?_⟩
  by_cases hm : i.mnemonic = .lda ∨ i.mnemonic = .adc
  · rw [dataReads_of_lda_or_adc s hm]
    simp only [classOf_eq_address_iff hm (hasMode_of_wellFormed hm hwf), hm, true_and]
    exact apply_ite List.length _ _ _
  · simp [dataReads_of_not_lda_or_adc s hm, hm]

/-! ## A step depends on memory through the bytes it reads -/

/-- With another memory that holds the same bytes where LDA or ADC reads, the operand value is the same (20_memory.md R37). -/
theorem operandValue_with_mem {i : Instr} {s : State} {m' : Memory} (hm : i.mnemonic = .lda ∨ i.mnemonic = .adc)
    (hreads : ∀ addr ∈ stepReads i s, Memory.read m' addr.toNat = s.readByte addr) :
    operandValue i.operand { s with mem := m' } = operandValue i.operand s := by
  refine operandValue_congr (resolve_congr rfl rfl rfl fun addr haddr => hreads addr ?_) fun hclass => hreads _ ?_
  · exact List.mem_append_left _ (List.mem_append_right _ haddr)
  · rw [stepReads, dataReads_of_lda_or_adc s hm, if_pos hclass]
    exact List.mem_append_right _ List.mem_cons_self

/-- With such a memory an instruction that completes answers the same, and leaves that memory as it is (20_memory.md R45). -/
theorem exec_with_mem {i : Instr} {s t : State} {m' : Memory} {opcode : Byte} (hop : opcodeOf s.cfg i = some opcode)
    (hreads : ∀ addr ∈ stepReads i s, Memory.read m' addr.toNat = s.readByte addr) (h : exec i s = .next t) :
    exec i { s with mem := m' } = .next { t with mem := m' } := by
  rcases exec_next_cases h with ⟨o, v, rfl, hv, rfl⟩ | ⟨o, m, rfl, hv, rfl⟩ | ⟨rfl, rfl⟩ | ⟨hx, opcode', hop', rfl⟩
  · rw [exec_lda]
    exact executeOnValue_of loadAccumulator hop ((operandValue_with_mem (.inl rfl) hreads).trans hv)
  · rw [exec_adc]
    exact executeOnValue_of addToAccumulator hop ((operandValue_with_mem (.inr rfl) hreads).trans hv)
  · exact exec_hlt { s with mem := m' }
  · rw [exec_decodeOnly _ hx]
    exact raiseForDecodeOnly_of_opcodeOf hop'

/-- Settles O39: with the same bytes where the step reads, the same instruction is fetched, and its execution answers the same. -/
theorem stepDependsOnItsReadsAlone : Obligations.StepDependsOnItsReadsAlone := by
  intro s t i s1 m' hfetch hstep hreads
  obtain ⟨opcode, hop⟩ := (wellFormed_iff_opcodeOf _ _).mp (State.fetchInstr_wellFormed hfetch)
  have hfetch' := State.fetchInstr_congr (s := s) (s' := { s with mem := m' }) rfl rfl hfetch
    fun addr haddr => hreads addr (List.mem_append_left _ (List.mem_append_left _ haddr))
  rw [step_of_fetchInstr hfetch']
  exact exec_with_mem hop hreads ((step_of_fetchInstr hfetch).symm.trans hstep)

end Sys2Proof.Machine
end

section
/-! PROOFS of the family 30_encoding.md: the two directions of the round trip between bytes and instructions, where the decoder answers, and what the
opcode map gives each byte. -/

namespace Sys2Proof

/-! ## The round trip -/

/-- The bytes of an instruction decode to it, and what follows them is left over (30_encoding.md R50, R51). -/
theorem decode_of_opcodeOf {cfg : Config} {i : Instr} {opcode : Byte} (rest : List Byte) (h : opcodeOf cfg i = some opcode) :
    decode cfg (opcode :: (i.operand.bytes ++ rest)) = .ok (i, rest) := by
  obtain ⟨hmap, hunk⟩ := opcodeMap_of_opcodeOf h
  rw [decode_cons cfg opcode i.operand rest (by rw [hmap]), hmap, Instr.ofParts_self i opcode hunk]

/-- Settles O11: a well-formed instruction has an opcode byte, which the opcode map gives back its mnemonic and mode. -/
theorem decodeOfEncodeIsIdentity : Obligations.DecodeOfEncodeIsIdentity := by
  intro cfg i rest hwf
  obtain ⟨opcode, hop⟩ := (wellFormed_iff_opcodeOf cfg i).mp hwf
  refine ⟨opcode :: i.operand.bytes, by rw [encode, hop, Option.map_some], ?_, decode_of_opcodeOf rest hop⟩
  rw [List.length_cons, Operand.length_bytes, Instr.operandByteLength, Nat.add_comm]

/-- The decoder answers once the operand bytes are there: they are the bytes of an operand of the mapped mode, and what follows is left over
(30_encoding.md R53). -/
theorem decode_of_length_le {cfg : Config} {opcode : Byte} {rest : List Byte}
    (h : operandByteLengthOf cfg opcode ≤ rest.length) :
    ∃ o : Operand, o.mode = (opcodeMap cfg opcode).2 ∧ rest = o.bytes ++ rest.drop (operandByteLengthOf cfg opcode) ∧
      decode cfg (opcode :: rest) =
        .ok (Instr.ofParts (opcodeMap cfg opcode).1 opcode o, rest.drop (operandByteLengthOf cfg opcode)) := by
  obtain ⟨o, hmode, hbytes, -⟩ := Operand.exists_bytes _ (rest.take (operandByteLengthOf cfg opcode)) (List.length_take_of_le h)
  have hrest : rest = o.bytes ++ rest.drop (operandByteLengthOf cfg opcode) := by rw [hbytes, List.take_append_drop]
  refine ⟨o, hmode, hrest, ?_⟩
  rw [← decode_cons cfg opcode o _ hmode, ← hrest]

/-- The decoder answers `truncated` where operand bytes are missing (30_encoding.md R53). -/
theorem decode_of_length_lt {cfg : Config} {opcode : Byte} {rest : List Byte}
    (h : rest.length < operandByteLengthOf cfg opcode) : decode cfg (opcode :: rest) = .error .truncated := by
  have hle := Laws.Mode.byteLength_le_two (opcodeMap cfg opcode).2
  unfold operandByteLengthOf at h
  simp only [decode]
  generalize (opcodeMap cfg opcode).2.byteLength = n at h hle ⊢
  match n, rest, h, hle with
  | 1, [], _, _ => rfl
  | 2, [], _, _ => rfl
  | 2, [_], _, _ => rfl

/-- Settles O13: the opcode byte tells how many operand bytes are read, and they are there or they are not. -/
theorem decoderIsTotal : Obligations.DecoderIsTotal := by
  intro cfg opcode rest
  split
  case isTrue h =>
    obtain ⟨o, hmode, -, hdecode⟩ := decode_of_length_le h
    obtain ⟨-, -, hoperand⟩ := opcodeOf_ofParts cfg opcode o hmode
    exact ⟨_, hdecode, by rw [Instr.operandByteLength, hoperand, hmode, operandByteLengthOf]⟩
  case isFalse h => exact decode_of_length_lt (Nat.lt_of_not_le h)

/-- What decodes is an opcode byte with the bytes of an operand of its mapped mode, and the instruction is made of these parts
(40_decode_and_resolve.md R70). -/
theorem decode_eq_ok {cfg : Config} {bytes rest : List Byte} {i : Instr} (h : decode cfg bytes = .ok (i, rest)) :
    ∃ (opcode : Byte) (o : Operand), bytes = opcode :: (o.bytes ++ rest) ∧ o.mode = (opcodeMap cfg opcode).2 ∧
      i = Instr.ofParts (opcodeMap cfg opcode).1 opcode o := by
  match bytes with
  | [] => cases h
  | opcode :: tail =>
    by_cases hlen : operandByteLengthOf cfg opcode ≤ tail.length
    · obtain ⟨o, hmode, htail, hdecode⟩ := decode_of_length_le hlen
      rw [hdecode] at h
      cases h
      exact ⟨opcode, o, congrArg _ htail, hmode, rfl⟩
    · rw [decode_of_length_lt (Nat.lt_of_not_le hlen)] at h
      cases h

/-- Settles O12: the opcode byte of what was decoded is the first byte consumed, and its operand bytes are the others. -/
theorem decodedBytesAreTheEncoding : Obligations.DecodedBytesAreTheEncoding := by
  intro cfg bytes rest i h
  obtain ⟨opcode, o, rfl, hmode, rfl⟩ := decode_eq_ok h
  obtain ⟨hop, -, hoperand⟩ := opcodeOf_ofParts cfg opcode o hmode
  refine ⟨(wellFormed_iff_opcodeOf _ _).mpr ⟨opcode, hop⟩, opcode :: o.bytes, ?_, rfl⟩
  rw [encode, hop, Option.map_some, hoperand]

/-! ## Words written out of the encodings -/

/-- Settles O10: the decoder is evaluated on each word. -/
theorem sampleBytesDecode : Obligations.SampleBytesDecode :=
  ⟨rfl, rfl, rfl, rfl, rfl, rfl, rfl, rfl, rfl, rfl, rfl, rfl, rfl, rfl, rfl, rfl⟩

/-! ## The opcode map -/

/-- An unassigned byte is in no row of the table: it is HLT where it is the halt byte, else UNK (30_encoding.md R56, R57). -/
theorem opcodeMap_of_isUnassigned (cfg : Config) {b : Byte} (h : Config.isUnassigned b = true) :
    opcodeMap cfg b = if b = cfg.haltOpcode then (.hlt, .implied) else (.unk, .implied) :=
  opcodeMap_of_unassigned (Option.isNone_iff_eq_none.mp ((isUnassigned_eq b).symm.trans h))

/-- Settles O14: a row's byte is looked up in the table; a legal halt byte and the other unassigned bytes are in no row. -/
theorem opcodeMapFollowsTableAndHaltByte : Obligations.OpcodeMapFollowsTableAndHaltByte := fun cfg hlegal =>
  ⟨fun _ hr => opcodeMap_of_row hr, (opcodeMap_of_isUnassigned cfg hlegal).trans (if_pos rfl),
    fun _ hb hne => (opcodeMap_of_isUnassigned cfg hb).trans (if_neg hne)⟩

/-- The numbers below 256 are the bytes of the table's rows and the unassigned bytes, each once (30_encoding.md R55 to R57). -/
theorem range_perm_opcodes_unassignedBytes :
    (List.range 256).Perm ((opcodeTable.map OpcodeRow.opcode ++ Config.unassignedBytes).map BitVec.toNat) := by
  decide +kernel

/-- The opcode map gives the 256 bytes the mnemonics of the table's rows, and HLT or UNK for each unassigned byte (40_decode_and_resolve.md R72). -/
theorem opcodeMap_mnemonics_perm (cfg : Config) :
    ((List.range 256).map fun n => (opcodeMap cfg (BitVec.ofNat 8 n)).1).Perm
      (opcodeTable.map OpcodeRow.mnemonic ++
        Config.unassignedBytes.map fun b => if b = cfg.haltOpcode then Mnemonic.hlt else Mnemonic.unk) := by
  have hperm := range_perm_opcodes_unassignedBytes.map fun n => (opcodeMap cfg (BitVec.ofNat 8 n)).1
  have hrows : opcodeTable.map (fun r => (opcodeMap cfg r.opcode).1) = opcodeTable.map OpcodeRow.mnemonic :=
    List.map_congr_left fun r hr => congrArg Prod.fst (opcodeMap_of_row hr)
  have hother : Config.unassignedBytes.map (fun b => (opcodeMap cfg b).1) =
      Config.unassignedBytes.map fun b => if b = cfg.haltOpcode then Mnemonic.hlt else Mnemonic.unk :=
    List.map_congr_left fun b hb => by
      rw [opcodeMap_of_isUnassigned cfg (List.contains_iff_mem.mpr hb), apply_ite Prod.fst]
  simpa [Function.comp_def, hrows, hother] using hperm

/-- Settles O15: the mnemonics are counted in the rows of the table and over the unassigned bytes, of which 0x02 is the halt byte. -/
theorem opcodeClassCounts : Obligations.OpcodeClassCounts := by
  have hperm := opcodeMap_mnemonics_perm Config.default
  simp only [Obligations.OpcodeClassCounts, hperm.count_eq, hperm.countP_eq]
  decide +kernel

end Sys2Proof
end

section
/-! PROOFS of the family 40_decode_and_resolve.md: the operand each addressing mode resolves to, the value an instruction works on, and the descriptor
of the instruction at `pc`. -/

namespace Sys2Proof.Machine

/-! ## Sums of bytes and words -/

/-- A sum of two bytes stays in the zero page (40_decode_and_resolve.md R77, R78). -/
theorem zext16_add_toNat (b c : Byte) : (zext16 (b + c)).toNat = (b.toNat + c.toNat) % 256 := by
  rw [zext16_toNat, BitVec.toNat_add]

/-- An index register is added unsigned, modulo 65536 (D1). -/
theorem add_zext16_toNat (w : Word) (b : Byte) : (w + zext16 b).toNat = (w.toNat + b.toNat) % 65536 := by
  rw [BitVec.toNat_add, zext16_toNat]

theorem wordOf_add_zext16_toNat (lo hi b : Byte) :
    (wordOf lo hi + zext16 b).toNat = (hi.toNat * 256 + lo.toNat + b.toNat) % 65536 := by
  rw [add_zext16_toNat, wordOf_toNat]

/-! ## The modes without a pointer -/

/-- Settles O16: the index register is added to the operand byte before the sum is extended. -/
theorem zeroPageIndexedWrapsInZeroPage : Obligations.ZeroPageIndexedWrapsInZeroPage := fun s b =>
  ⟨zext16_add_toNat b s.x, zext16_add_toNat b s.y, rfl, rfl, rfl, rfl⟩

/-- Settles O17: both modes extend the operand byte. -/
theorem immediateAndZeroPageZeroExtend : Obligations.ImmediateAndZeroPageZeroExtend := fun _ b =>
  ⟨zext16_toNat b, zext16_toNat b, rfl, rfl, rfl, rfl, rfl, rfl⟩

/-- Settles O18: Relative extends its byte as Immediate does; the other two modes have a fixed operand. -/
theorem impliedAccumulatorRelativeOperands : Obligations.ImpliedAccumulatorRelativeOperands := fun _ b =>
  ⟨rfl, rfl, zext16_toNat b, rfl, rfl, rfl, rfl, rfl, rfl⟩

/-- Settles O19: the word of the two operand bytes, and its sums with the index registers. -/
theorem absoluteModesAddIndexModuloAddressSpace : Obligations.AbsoluteModesAddIndexModuloAddressSpace := fun s lo hi =>
  ⟨wordOf_toNat lo hi, wordOf_add_zext16_toNat lo hi s.x, wordOf_add_zext16_toNat lo hi s.y, rfl, rfl, rfl⟩

/-! ## The modes that follow a pointer -/

theorem indirectPointer_toNat (s : State) (lo hi : Byte) : (indirectPointer s lo hi).toNat =
    if s.cfg.indirectAddsX then (hi.toNat * 256 + lo.toNat + s.x.toNat) % 65536 else hi.toNat * 256 + lo.toNat := by
  rw [indirectPointer, apply_ite BitVec.toNat, wordOf_add_zext16_toNat, wordOf_toNat]

theorem indirectPointerHigh_toNat (cfg : Config) (p : Word) : (indirectPointerHigh cfg p).toNat =
    if cfg.indirectPageWrapBug then p.toNat / 256 * 256 + (p.toNat % 256 + 1) % 256 else (p.toNat + 1) % 65536 := by
  rw [indirectPointerHigh, apply_ite BitVec.toNat, wordOf_toNat, highByte_toNat, BitVec.toNat_add, lowByte_toNat,
    BitVec.toNat_add]
  rfl

theorem zpPointerHigh_toNat (cfg : Config) (b : Byte) :
    (zpPointerHigh cfg b).toNat = if cfg.zpPointerWrap then (b.toNat + 1) % 256 else b.toNat + 1 := by
  have hlt : b.toNat + 1 < 65536 := by omega
  rw [zpPointerHigh, apply_ite BitVec.toNat, zext16_add_toNat, BitVec.toNat_add, zext16_toNat]
  exact congrArg _ (Nat.mod_eq_of_lt hlt)

/-- A pointer is little-endian (20_memory.md R34, D10). -/
theorem readPointer_toNat {s : State} {lowAt highAt : Word} {p p2 : Nat} (hp : lowAt.toNat = p) (hp2 : highAt.toNat = p2) :
    (readPointer s lowAt highAt).toNat = (Memory.read s.mem p2).toNat * 256 + (Memory.read s.mem p).toNat := by
  subst hp hp2
  exact wordOf_toNat _ _

/-- Settles O20: the two addresses of each pointer are the numbers named, under every choice of the parameters. -/
theorem indirectModesFollowPointers : Obligations.IndirectModesFollowPointers := by
  intro s b lo hi
  refine ⟨fun p p2 hp hp2 => ?_, fun p p2 hp hp2 => ?_, fun p2 hp2 => ?_⟩
  · have hlow : (indirectPointer s lo hi).toNat = p := (indirectPointer_toNat s lo hi).trans hp.symm
    have hhigh : (indirectPointerHigh s.cfg (indirectPointer s lo hi)).toNat = p2 := by
      rw [indirectPointerHigh_toNat, hlow, hp2]
    exact readPointer_toNat hlow hhigh
  · have hlow : (b + s.x).toNat = p := (BitVec.toNat_add b s.x).trans hp.symm
    have hhigh : (zpPointerHigh s.cfg (b + s.x)).toNat = p2 := by rw [zpPointerHigh_toNat, hlow, hp2]
    exact readPointer_toNat ((zext16_toNat _).trans hlow) hhigh
  · have hhigh : (zpPointerHigh s.cfg b).toNat = p2 := (zpPointerHigh_toNat s.cfg b).trans hp2.symm
    rw [resolve, add_zext16_toNat, readPointer_toNat (zext16_toNat b) hhigh]

/-! ## The operand value -/

theorem classOf_eq_immediate_iff (mode : Mode) : classOf mode = .immediate ↔ mode = .immediate ∨ mode = .relative := by
  cases mode <;> decide

theorem classOf_eq_none_iff (mode : Mode) : classOf mode = .none ↔ mode = .implied ∨ mode = .accumulator := by
  cases mode <;> decide

/-- Settles O21, by the three classes. -/
theorem operandValueFollowsItsClass : Obligations.OperandValueFollowsItsClass := by
  intro s o
  simp only [← classOf_eq_immediate_iff, ← classOf_eq_none_iff, BitVec.ofNat_toNat]
  unfold operandValue
  cases classOf o.mode <;> rfl

/-! ## The descriptor -/

/-- An operand is what its mode makes of the bytes it was read from (30_encoding.md R54). -/
theorem Operand.eq_ofMode_of_bytes {o : Operand} {a : Word} {f : Word → Byte}
    (h : o.bytes = (addressesFrom a o.mode.byteLength).map f) : o = Operand.ofMode o.mode (f a) (f (a + 1)) := by
  -- each operand's own bytes are, by `h`, none, `f a`, or `f a` and `f (a + 1)`
  cases o <;> cases h <;> rfl

/-- The instruction at `pc` has the operand that its mode makes of the two bytes after the opcode byte (40_decode_and_resolve.md R70). -/
theorem State.fetchInstr_operand {s s' : State} {i : Instr} (h : s.fetchInstr = some (i, s')) :
    i.operand = Operand.ofMode i.operand.mode (s.readByte (s.pc + 1)) (s.readByte (s.pc + 2)) := by
  obtain ⟨j, hfetch, -, -, -, hbytes⟩ := s.fetchInstr_spec
  cases hfetch.symm.trans h
  have hnext : s.pc + 1 + 1 = s.pc + 2 := BitVec.add_assoc s.pc 1 1
  rw [← hnext]
  exact Operand.eq_ofMode_of_bytes hbytes

/-- Decoding at `pc` describes the instruction there and moves past it (40_decode_and_resolve.md R74). -/
theorem decodeHere_of_fetchInstr {s s' : State} {i : Instr} (h : s.fetchInstr = some (i, s')) :
    decodeHere s = some (describe i s, s') := by
  rw [decodeHere, h, Option.map_some]

/-- Settles O40: the descriptor is that of the instruction at `pc`. -/
theorem peekReturnsTheDescriptor : Obligations.PeekReturnsTheDescriptor := by
  intro s
  obtain ⟨i, hfetch, hop, -⟩ := s.fetchInstr_spec
  have hmap : (i.mnemonic, i.operand.mode) = opcodeMap s.cfg (s.readByte s.pc) := (opcodeMap_of_opcodeOf hop).1.symm
  refine ⟨describe i s, peek_of_fetchInstr hfetch, decodeHere_of_fetchInstr hfetch, rfl, hmap, rfl, ?_⟩
  exact congrArg (resolve · s) (State.fetchInstr_operand hfetch)

end Sys2Proof.Machine
end

section
/-! PROOFS of the family 41_lda.md: what an instruction that works on an operand value completes with, and LDA's result, flags and frame. -/

namespace Sys2Proof.Machine

/-- A well-formed LDA or ADC has an operand value, and completes with its effect applied to it past the instruction (41_lda.md R100, 42_adc.md R105). -/
theorem executeOnValue_of_wellFormed {i : Instr} {s : State} (effect : Byte → State → State)
    (hm : i.mnemonic = .lda ∨ i.mnemonic = .adc) (h : wellFormed s.cfg i = true) :
    ∃ v, operandValue i.operand s = some v ∧
      executeOnValue i effect s = .next ((effect v (s.advance i.length)).setResult .ok) := by
  obtain ⟨opcode, hop⟩ := (wellFormed_iff_opcodeOf _ _).mp h
  obtain ⟨v, hv⟩ := operandValue_of_hasMode s hm (hasMode_of_wellFormed hm h)
  exact ⟨v, hv, executeOnValue_of effect hop hv⟩

/-- Settles O22: LDA completes with its operand value loaded; the flags N and Z follow the value, and the frame is that of every instruction. -/
theorem ldaLoadsTheOperandValue : Obligations.LdaLoadsTheOperandValue := by
  intro s o hwf
  obtain ⟨v, hv, hexec⟩ := executeOnValue_of_wellFormed loadAccumulator (.inl rfl) hwf
  rw [← exec_lda] at hexec
  have hkept := exec_sameUnwritten hexec
  obtain ⟨hn, hz⟩ := exec_negative_zero hexec (.inl rfl)
  obtain ⟨hvflag, hc⟩ := exec_lda_keeps_v_c hexec rfl
  exact ⟨v, _, hv, hexec, rfl, hn, hz, exec_pc hexec, rfl, hkept.x, hkept.y, hkept.cfg, hvflag, hkept.bhi, hkept.blo, hkept.d,
    hkept.i, hc, hkept.readByte⟩

end Sys2Proof.Machine
end

section
/-! PROOFS of the family 42_adc.md: the forms of ADC's overflow and carry, and ADC's result, flags and frame. -/

namespace Sys2Proof.Machine

/-! ## Overflow and carry -/

/-- The mask 0x80 leaves bit 7 alone. -/
theorem and_0x80_ne_zero_iff (v : Byte) : v &&& 0x80 ≠ 0 ↔ v.getLsbD 7 = true := by
  have hmask : v &&& 0x80 = if v.getLsbD 7 then 0x80 else 0 := BitVec.and_twoPow v 7
  rw [hmask]
  cases v.getLsbD 7 <;> decide

/-- ADC's overflow is the library's overflow of the signed sum. -/
theorem addOverflow_eq_saddOverflow (a m : Byte) : addOverflow a m = a.saddOverflow m :=
  (BitVec.saddOverflow_eq a m).symm

theorem addOverflow_iff_toInt (a m : Byte) :
    addOverflow a m = true ↔ (a.toInt + m.toInt > 127 ∨ a.toInt + m.toInt < -128) := by
  rw [addOverflow_eq_saddOverflow, BitVec.saddOverflow, Bool.or_eq_true, decide_eq_true_iff, decide_eq_true_iff]
  exact Iff.rfl

theorem addOverflow_iff_getLsbD (a m : Byte) :
    addOverflow a m = true ↔ (a.getLsbD 7 = m.getLsbD 7 ∧ (a + m).getLsbD 7 ≠ a.getLsbD 7) := by
  rw [addOverflow, Bool.and_eq_true, beq_iff_eq, bne_iff_ne]
  simp only [BitVec.msb_eq_getLsbD_last]

/-- The result differs in bit 7 from both operands exactly where they agree there and it differs from the first (42_adc.md R105). -/
theorem addOverflow_iff_xor (a m : Byte) :
    addOverflow a m = true ↔ (a ^^^ (a + m)) &&& (m ^^^ (a + m)) &&& 0x80 ≠ 0 := by
  rw [addOverflow_iff_getLsbD, and_0x80_ne_zero_iff, BitVec.getLsbD_and, BitVec.getLsbD_xor, BitVec.getLsbD_xor]
  generalize (a + m).getLsbD 7 = r
  cases a.getLsbD 7 <;> cases m.getLsbD 7 <;> cases r <;> decide

theorem addCarry_iff (a m : Byte) : addCarry a m = true ↔ a.toNat + m.toNat > 255 := decide_eq_true_iff

/-- Settles O6: the bit forms by cases on bit 7 of the operands and the sum, the signed one by the library's overflow. -/
theorem adcOverflowFormsAgree : Obligations.AdcOverflowFormsAgree := fun a m =>
  ⟨addOverflow_iff_toInt a m, addOverflow_iff_xor a m, addOverflow_iff_getLsbD a m, addCarry_iff a m⟩

/-! ## The instruction -/

/-- Settles O23: ADC completes with its operand value added to the accumulator; C and V are those of this addition alone, N and Z follow the sum,
and the frame is that of every instruction. -/
theorem adcAddsWithoutCarryIn : Obligations.AdcAddsWithoutCarryIn := by
  intro s o hwf
  obtain ⟨m, hm, hexec⟩ := executeOnValue_of_wellFormed addToAccumulator (.inr rfl) hwf
  rw [← exec_adc] at hexec
  have hkept := exec_sameUnwritten hexec
  obtain ⟨hn, hz⟩ := exec_negative_zero hexec (.inr rfl)
  exact ⟨m, _, hm, hexec, BitVec.toNat_add s.a m, addCarry_iff s.a m, addOverflow_iff_toInt s.a m, hn, hz, exec_pc hexec, rfl,
    hkept.x, hkept.y, hkept.cfg, hkept.bhi, hkept.blo, hkept.d, hkept.i, hkept.readByte⟩

end Sys2Proof.Machine
end

section
/-! PROOFS of the family 43_pseudo_hlt_unknown.md: the halt marker, the run of a parked core, and the unknown opcode. -/

namespace Sys2Proof.Machine

/-! ## The halt marker -/

theorem State.parked_iff (s : State) : s.parked = true ↔ (opcodeMap s.cfg (s.readByte s.pc)).1 = .hlt := beq_iff_eq

/-- A parked core decodes and executes the halt marker: the step changes nothing but its result (43_pseudo_hlt_unknown.md R110). -/
theorem step_of_parked {s : State} (h : s.parked = true) : step s = .next (s.setResult .ok) := by
  obtain ⟨i, hfetch, -, hmn, -⟩ := s.fetchInstr_spec
  obtain rfl := Instr.eq_hlt (hmn.trans (s.parked_iff.mp h))
  rw [step_of_fetchInstr hfetch, exec_hlt]

/-- A step that returns `Ok` is the first of a run without an error. -/
theorem okRun_succ_of_step {s t : State} (k : Nat) (h : step s = .next t) (hok : t.result = .ok) :
    okRun (k + 1) s = okRun k t := by
  simp only [okRun, h, hok, if_true]

/-- A parked core stays where it is: each step leaves a parked core again (70_reset_and_hazards.md R235). -/
theorem okRun_of_parked (k : Nat) {s : State} (h : s.parked = true) : okRun (k + 1) s = some (s.setResult .ok) := by
  induction k generalizing s with
  | zero => exact okRun_succ_of_step 0 (step_of_parked h) rfl
  | succ k ih =>
    have hparked : (s.setResult .ok).parked = true := h
    exact (okRun_succ_of_step (k + 1) (step_of_parked h) rfl).trans (ih hparked)

/-- Settles O24: the rewind undoes the decode's move of `pc`, and a parked core runs HLT again and again. -/
theorem hltChangesNothingAndParks : Obligations.HltChangesNothingAndParks :=
  ⟨exec_hlt, fun k _ h => okRun_of_parked k h⟩

/-! ## The unknown opcode -/

/-- Settles O25: UNK has no execution rule, and its opcode byte is the one it carries. -/
theorem unkRaisesUnimplementedOpcode : Obligations.UnkRaisesUnimplementedOpcode := by
  intro s b hunassigned hne
  have hwf : wellFormed s.cfg (.unk b) = true := by simp [wellFormed, hunassigned, hne]
  have hop : opcodeOf s.cfg (.unk b) = some b := by rw [opcodeOf_unk, if_pos hwf]
  have hx : ¬ Mnemonic.executes (Instr.unk b).mnemonic := by simp [Mnemonic.executes, Instr.mnemonic]
  rw [exec_decodeOnly s hx]
  exact raiseForDecodeOnly_of_opcodeOf hop

end Sys2Proof.Machine
end

section
/-! PROOFS of the family 44_decode_only_data.md: the table's row of a legal instruction, and the error every decode-only mnemonic raises. -/

namespace Sys2Proof.Machine

/-- A well-formed instruction of a legal mnemonic has a row of the opcode table, of its mnemonic and its mode, whose byte is its opcode
(30_encoding.md R55). -/
theorem row_of_wellFormed {cfg : Config} {i : Instr} (hwf : wellFormed cfg i = true) (hh : i.mnemonic ≠ .hlt)
    (hu : i.mnemonic ≠ .unk) :
    ∃ r ∈ opcodeTable, r.mnemonic = i.mnemonic ∧ r.mode = i.operand.mode ∧ opcodeOf cfg i = some r.opcode := by
  obtain ⟨hop, hwfm⟩ := opcodeOf_legal cfg hh hu
  obtain ⟨r, hr⟩ := (hasMode_iff_rowOfForm _ hh hu).mp (hwfm.symm.trans hwf)
  obtain ⟨hmem, hmn, hmode⟩ := rowOfForm_mem hr
  exact ⟨r, hmem, hmn, hmode, by rw [hop, hr, Option.map_some]⟩

/-- Settles O26: a mnemonic without an execution rule raises the error with its own opcode byte, that of its row of the table, and its length is
that of the row's mode. -/
theorem decodeOnlyMnemonicsRaiseUnimplementedOpcode : Obligations.DecodeOnlyMnemonicsRaiseUnimplementedOpcode := by
  intro s i hwf hlda hadc hhlt hunk
  obtain ⟨r, hmem, hmn, hmode, hop⟩ := row_of_wellFormed hwf hhlt hunk
  have hx : ¬ Mnemonic.executes i.mnemonic := not_or.mpr ⟨hlda, not_or.mpr ⟨hadc, hhlt⟩⟩
  refine ⟨r, hmem, hmn, hmode, ?_⟩
  rw [exec_decodeOnly s hx, hmode]
  exact raiseForDecodeOnly_of_opcodeOf hop

end Sys2Proof.Machine
end

section
/-! PROOFS of the family 46_step_and_lookahead.md: the instruction a step runs, the descriptors that are refused, and what a peek reads, returns and
leaves. -/

namespace Sys2Proof.Machine

/-! ## The step -/

/-- Settles O29: the instruction that the three bytes decode to is the one the step fetches. -/
theorem stepRunsTheDecodedInstruction : Obligations.StepRunsTheDecodedInstruction := by
  intro s i rest h
  have hfetch : s.fetchInstr = some (i, s.advance i.length) := by
    refine State.fetchInstr_of_decode (rest := rest) ?_
    have hnext : s.pc + 1 + 1 = s.pc + 2 := BitVec.add_assoc s.pc 1 1
    simpa only [addressesFrom, List.map_cons, List.map_nil, hnext] using h
  exact ⟨State.fetchInstr_wellFormed hfetch, step_of_fetchInstr hfetch⟩

/-- Settles O43: every step completes, and the driver's step replies with its result. -/
theorem stepReplyIsItsResult : Obligations.StepReplyIsItsResult := by
  intro s
  obtain ⟨t, h⟩ := step_completes s
  exact ⟨t, h, operate_step h⟩

/-! ## Descriptors that decode cannot produce -/

theorem opcodeOf_eq_none {cfg : Config} {i : Instr} (h : wellFormed cfg i = false) : opcodeOf cfg i = none := by
  refine Option.eq_none_iff_forall_ne_some.mpr fun opcode hop => ?_
  exact Bool.false_ne_true (h.symm.trans ((wellFormed_iff_opcodeOf cfg i).mpr ⟨opcode, hop⟩))

theorem executeOnValue_of_opcodeOf_none {i : Instr} {s : State} (effect : Byte → State → State) (h : opcodeOf s.cfg i = none) :
    executeOnValue i effect s = .refused .impossibleDescriptor := by
  simp only [executeOnValue, h]

theorem raiseForDecodeOnly_of_opcodeOf_none {i : Instr} {s : State} (h : opcodeOf s.cfg i = none) :
    raiseForDecodeOnly i s = .refused .impossibleDescriptor := by
  simp only [raiseForDecodeOnly, h]

/-- Settles O27: an ill-formed instruction has no opcode byte, and every meaning but HLT's refuses one without. -/
theorem impossibleDescriptorsAreRefused : Obligations.ImpossibleDescriptorsAreRefused := by
  intro s i hhlt hwf
  have hop := opcodeOf_eq_none hwf
  by_cases hx : Mnemonic.executes i.mnemonic
  · rcases Instr.eq_of_executes hx with ⟨o, rfl⟩ | ⟨o, rfl⟩ | rfl
    · exact (exec_lda o s).trans (executeOnValue_of_opcodeOf_none _ hop)
    · exact (exec_adc o s).trans (executeOnValue_of_opcodeOf_none _ hop)
    · exact absurd rfl hhlt
  · exact (exec_decodeOnly s hx).trans (raiseForDecodeOnly_of_opcodeOf_none hop)

/-! ## What a peek reads -/

/-- The fetch leaves `pc` just past the instruction (40_decode_and_resolve.md R74). -/
theorem State.fetchInstr_eq_advance {s s1 : State} {i : Instr} (h : s.fetchInstr = some (i, s1)) : s1 = s.advance i.length := by
  obtain ⟨j, hfetch, -⟩ := s.fetchInstr_spec
  cases hfetch.symm.trans h
  rfl

/-- A descriptor depends on `cfg`, `pc`, `x`, `y` and the bytes at `decodeReads` alone (40_decode_and_resolve.md R91). -/
theorem describe_congr {i : Instr} {s s' : State} (hc : s'.cfg = s.cfg) (hp : s'.pc = s.pc) (hx : s'.x = s.x) (hy : s'.y = s.y)
    (hm : ∀ addr ∈ decodeReads i s, s'.readByte addr = s.readByte addr) : describe i s' = describe i s := by
  have hopcode : s'.readByte s'.pc = s.readByte s.pc := by
    rw [hp]
    refine hm _ (List.mem_append_left _ ?_)
    rw [Instr.length, Nat.add_comm, addressesFrom]
    exact List.mem_cons_self
  have hoperand : resolve i.operand s' = resolve i.operand s :=
    resolve_congr hc hx hy fun addr haddr => hm addr (List.mem_append_right _ haddr)
  simp only [describe, hopcode, hoperand]

/-- Settles O38: the other state has the same instruction at `pc`, with the same descriptor. -/
theorem peekDependsOnItsReadsAlone : Obligations.PeekDependsOnItsReadsAlone := by
  intro s s' i s1 hfetch hc hp hx hy hm
  have hfetch' := State.fetchInstr_congr hc hp hfetch fun addr haddr => hm addr (List.mem_append_left _ haddr)
  obtain rfl := State.fetchInstr_eq_advance hfetch
  refine ⟨describe i s, peek_of_fetchInstr hfetch, ?_⟩
  rw [← describe_congr hc hp hx hy hm]
  exact peek_of_fetchInstr hfetch'

/-! ## Leaving peeks out -/

/-- A peek, and no other operation, replies with a descriptor. -/
theorem operate_reply_isDescriptor {op : DriverOp} {s t : State} {reply : Reply} (h : operate op s = .next (t, reply)) :
    reply.isDescriptor = (op == .peek) := by
  cases op with
  | reset => cases h; rfl
  | step =>
    obtain ⟨u, hstep⟩ := step_completes s
    cases (operate_step hstep).symm.trans h
    rfl
  | peek =>
    obtain ⟨d, hpeek⟩ := peek_completes s
    cases (operate_peek hpeek).symm.trans h
    rfl
  | read addr => cases h; rfl
  | write addr byte => cases h; rfl

theorem operate_peek_keeps_state {s t : State} {reply : Reply} (h : operate .peek s = .next (t, reply)) : t = s := by
  obtain ⟨d, hpeek⟩ := peek_completes s
  cases (operate_peek hpeek).symm.trans h
  rfl

/-- A sequence without its peeks ends in the same state, with the same replies to the operations left (46_step_and_lookahead.md R194). -/
theorem operateAll_filter_peek {ops : List DriverOp} {s t : State} {replies : List Reply}
    (h : operateAll ops s = .next (t, replies)) :
    operateAll (ops.filter fun op => op != .peek) s = .next (t, replies.filter fun r => !r.isDescriptor) := by
  induction ops generalizing s replies with
  | nil => cases h; rfl
  | cons op ops ih =>
    obtain ⟨u, reply, rest, hop, hrest, rfl⟩ := operateAll_cons.mp h
    have hreply := operate_reply_isDescriptor hop
    by_cases hpeek : op = .peek
    · subst hpeek
      obtain rfl := operate_peek_keeps_state hop
      rw [List.filter_cons_of_neg (by simp), List.filter_cons_of_neg (by simp [hreply])]
      exact ih hrest
    · rw [List.filter_cons_of_pos (by simp [hpeek]), List.filter_cons_of_pos (by simp [hreply, hpeek])]
      exact operateAll_cons.mpr ⟨u, reply, _, hop, ih hrest, rfl⟩

/-- Settles O41: a peek describes the instruction that the step fetches and keeps the state, so a second one finds the same, and by induction on the
operations all peeks can be left out. -/
theorem peekIsTransparent : Obligations.PeekIsTransparent := by
  refine ⟨fun s => ?_, fun ops s t replies => operateAll_filter_peek⟩
  obtain ⟨i, hfetch, -⟩ := s.fetchInstr_spec
  have hpeek : operate .peek s = .next (s, .descriptor (describe i s)) := operate_peek (peek_of_fetchInstr hfetch)
  have hagain : operateAll [.peek] s = .next (s, [.descriptor (describe i s)]) :=
    operateAll_cons.mpr ⟨s, _, [], hpeek, rfl, rfl⟩
  exact ⟨describe i s, hpeek, operateAll_cons.mpr ⟨s, _, _, hpeek, hagain, rfl⟩, i, _, hfetch,
    step_of_fetchInstr hfetch, rfl⟩

end Sys2Proof.Machine
end

section
/-! PROOFS of the family 60_exceptions.md: which steps raise UnimplementedOpcode, the state the error leaves, and the step after it. -/

namespace Sys2Proof.Machine

/-! ## Which steps raise UnimplementedOpcode -/

/-- LDA, ADC and the halt marker never raise the error (60_exceptions.md R201). -/
theorem exec_result_ok {i : Instr} {s t : State} (h : exec i s = .next t) (hx : Mnemonic.executes i.mnemonic) : t.result = .ok := by
  rcases exec_next_cases h with ⟨o, v, -, -, rfl⟩ | ⟨o, m, -, -, rfl⟩ | ⟨-, rfl⟩ | ⟨hn, -⟩
  · rfl
  · rfl
  · rfl
  · exact absurd hx hn

theorem step_result_ok {s t : State} (h : step s = .next t)
    (hx : Mnemonic.executes (opcodeMap s.cfg (s.readByte s.pc)).1) : t.result = .ok := by
  obtain ⟨i, -, -, hmap, hexec⟩ := step_runs h
  rw [hmap] at hx
  exact exec_result_ok hexec hx

/-- Where the opcode byte is neither LDA's, ADC's nor the halt marker's, the step raises the error with that byte and its address, and moves `pc`
past the instruction (60_exceptions.md R201, R203; D4, D18). -/
theorem step_of_not_executes {s : State} (hx : ¬ Mnemonic.executes (opcodeMap s.cfg (s.readByte s.pc)).1) :
    step s = .next ((s.advance (1 + operandByteLengthOf s.cfg (s.readByte s.pc))).setResult
      (.unimplementedOpcode (s.readByte s.pc) s.pc)) := by
  obtain ⟨i, hfetch, hop, -⟩ := s.fetchInstr_spec
  obtain ⟨hmap, -⟩ := opcodeMap_of_opcodeOf hop
  rw [hmap] at hx
  rw [step_of_fetchInstr hfetch, exec_decodeOnly s hx, operandByteLengthOf, hmap]
  exact raiseForDecodeOnly_of_opcodeOf hop

/-- Settles O32: the mnemonic of the opcode byte tells whether the instruction has an execution rule. -/
theorem unimplementedOpcodeDependsOnOpcodeByteAlone : Obligations.UnimplementedOpcodeDependsOnOpcodeByteAlone := by
  intro s t m mode h hmap
  split
  case isTrue hx => exact step_result_ok h (by rwa [hmap])
  case isFalse hx =>
    have hstep := step_of_not_executes (s := s) (by rwa [hmap])
    rw [operandByteLengthOf, hmap] at hstep
    cases h.symm.trans hstep
    rfl

/-! ## The step after an error -/

/-- A step that returns the error is one on an opcode byte without an execution rule. -/
theorem not_executes_of_result {s t : State} {opcode : Byte} {origin : Word} (h : step s = .next t)
    (herr : t.result = .unimplementedOpcode opcode origin) : ¬ Mnemonic.executes (opcodeMap s.cfg (s.readByte s.pc)).1 := by
  intro hx
  rw [step_result_ok h hx] at herr
  contradiction

/-- A step does not read the earlier result (10_state.md R22). -/
theorem step_setResult (s : State) (r : StepResult) : step (s.setResult r) = step s := earlierResultIsNotRead s r

/-- Settles O48: the error leaves the state before it with `pc` moved past the instruction, and the next step does not read the result. -/
theorem steppingAfterAnErrorSkipsTheInstruction : Obligations.SteppingAfterAnErrorSkipsTheInstruction := by
  intro s t opcode origin h herr
  cases h.symm.trans (step_of_not_executes (not_executes_of_result h herr))
  cases herr
  obtain ⟨u, hu⟩ := step_completes (s.advance (1 + operandByteLengthOf s.cfg (s.readByte s.pc)))
  exact ⟨rfl, rfl, u, (step_setResult _ _).trans hu, (step_setResult (s.advance _) .ok).trans hu⟩

end Sys2Proof.Machine
end

section
/-! PROOFS of the family 70_reset_and_hazards.md: the state a reset leaves, the step straight after it, the step's totality, and the byte a parked core
rests on. -/

namespace Sys2Proof.Machine

/-! ## Totality -/

/-- Settles O31: the instruction at `pc` always exists and is well formed, and a well-formed instruction has a meaning. -/
theorem stepAlwaysAnswersNextState : Obligations.StepAlwaysAnswersNextState := step_completes

/-! ## The parked core -/

/-- The halt byte alone decodes to HLT, where it is a legal one: then it is in no row of the table, and no row has the mnemonic HLT
(40_decode_and_resolve.md R72, 30_encoding.md R56). -/
theorem opcodeMap_eq_hlt_iff {cfg : Config} {b : Byte} (hlegal : cfg.legal = true) :
    (opcodeMap cfg b).1 = .hlt ↔ b = cfg.haltOpcode := by
  refine ⟨fun h => ?_, ?_⟩
  · cases hrow : rowOfOpcode b with
    | some r =>
      obtain ⟨hmem, rfl⟩ := rowOfOpcode_mem hrow
      obtain ⟨-, hne, -⟩ := hasMode_of_row r hmem
      rw [opcodeMap_of_row hmem] at h
      exact absurd h hne
    | none =>
      by_contra hne
      rw [opcodeMap_of_unassigned hrow, if_neg hne] at h
      contradiction
  · rintro rfl
    rw [opcodeMap_of_isUnassigned cfg hlegal, if_pos rfl]

/-- A core is parked exactly where `pc` addresses the halt byte (70_reset_and_hazards.md R235; D19). -/
theorem State.parked_iff_haltByte {s : State} (hlegal : s.cfg.legal = true) :
    s.parked = true ↔ s.readByte s.pc = s.cfg.haltOpcode :=
  s.parked_iff.trans (opcodeMap_eq_hlt_iff hlegal)

/-- The 1 to 3 bytes of an instruction are no whole turn of the address space. -/
theorem Mode.pc_add_length_ne (mode : Mode) (pc : Word) : pc + BitVec.ofNat 16 (1 + mode.byteLength) ≠ pc := by
  have hle := Laws.Mode.byteLength_le_two mode
  bv_omega

/-- A step that keeps `pc` is a parked core's (10_state.md R14, 43_pseudo_hlt_unknown.md R110). -/
theorem parked_of_step_pc {s t : State} (h : step s = .next t) (hpc : t.pc = s.pc) : s.parked = true := by
  obtain ⟨i, -, -, hmap, -⟩ := step_runs h
  have hmoves := stepMovesPcPastTheInstruction s t _ _ h hmap
  by_contra hnot
  rw [s.parked_iff, hmap] at hnot
  rw [if_neg hnot, hpc] at hmoves
  exact Mode.pc_add_length_ne _ _ hmoves.symm

/-- Settles O34: a step off the halt byte moves `pc`, and one on it changes the result alone. -/
theorem stepChangesNothingExactlyWhenParked : Obligations.StepChangesNothingExactlyWhenParked := by
  intro s t hlegal h
  rw [← State.parked_iff_haltByte hlegal]
  refine ⟨fun hsame => parked_of_step_pc h (congrArg State.pc hsame :), fun hparked => ?_⟩
  cases h.symm.trans (step_of_parked hparked)
  rfl

/-! ## Reset, and the step after it -/

/-- A reset looks at the parameters alone (70_reset_and_hazards.md R230, R232). -/
theorem operate_reset {s s' : State} (hcfg : s'.cfg = s.cfg) : operate .reset s' = .next (s.resetAgain, .nothing) := by
  simp only [operate, State.resetAgain, hcfg]

/-- No byte is listed after a reset, so each reads as 0x00 (10_state.md R24). -/
theorem State.readByte_resetAgain (s : State) (addr : Word) : s.resetAgain.readByte addr = 0x00 := rfl

/-- Settles O1: every field but the parameters has its reset value, and another memory leaves the parameters as they are. -/
theorem resetZeroesEverything : Obligations.ResetZeroesEverything := fun s =>
  ⟨s.resetAgain, operate_reset rfl, s.resetAgain_a, s.resetAgain_x, s.resetAgain_y, s.resetAgain_pc, rfl, rfl, rfl, rfl, rfl, rfl,
    rfl, rfl, s.readByte_resetAgain, fun _ => operate_reset rfl⟩

/-- Settles O3: 0x00 is BRK, one byte long and without an execution rule. -/
theorem stepInFreshMemoryRaisesOnBrk : Obligations.StepInFreshMemoryRaisesOnBrk := by
  have hbrk : opcodeMap State.reset.cfg (State.reset.readByte State.reset.pc) = (.brk, .implied) := rfl
  have hx : ¬ Mnemonic.executes (opcodeMap State.reset.cfg (State.reset.readByte State.reset.pc)).1 := by
    rw [hbrk]
    decide
  rw [Obligations.StepInFreshMemoryRaisesOnBrk, step_of_not_executes hx, operandByteLengthOf, hbrk]
  rfl

end Sys2Proof.Machine
end
